-- ==== Sys2Proof/Word.lean ====
section
/-! DEFINITION. The word types of the core (spec/00_scope.md R8, R11): unsigned values of a stated width. -/

namespace Sys2Proof

/-- An 8-bit value: a general register, a timer, a byte of memory, the immediate `kk` (R8, R16). -/
abbrev Byte := BitVec 8

/-- A 16-bit value: an opcode, `I`, `pc`, a stack entry (R8). -/
abbrev Word := BitVec 16

/-- The 12-bit address operand `nnn` (R16, R78). -/
abbrev Addr := BitVec 12

/-- The index of a general register, always 0..15 (R23). -/
abbrev Reg := Fin 16

/-- The index of a keypad key, always 0..15 (R40, R112). -/
abbrev Key := Fin 16

/-- `zext_16(v)` of R11: zero bits on the left. -/
abbrev zext16 {n : Nat} (v : BitVec n) : Word := v.setWidth 16

/-- A Boolean as an 8-bit value, 1 for true and 0 for false (R11). -/
def boolByte (b : Bool) : Byte := if b then 1 else 0

end Sys2Proof
end

