-- ==== Sys2Proof/Decode.lean ====
section
/-! DEFINITION. chip8_decoder (spec/30_encoding.md): field extraction, the class of a word, the decoder (total on any
word and on any bytes, rejecting by name), the encoder written from the same patterns, and the opcode map of R82 as a
table of its own. -/

namespace Sys2Proof

/-! ## Fields (R76) -/

/-- `c(op) = op[15:12]`, the class nibble. -/
def fieldC (op : Word) : BitVec 4 := op.extractLsb' 12 4

/-- The register index a 4-bit field holds (R23). -/
def regOf (v : BitVec 4) : Reg := ⟨v.toNat, v.isLt⟩

/-- `x(op) = op[11:8]`. -/
def fieldX (op : Word) : Reg := regOf (op.extractLsb' 8 4)

/-- `y(op) = op[7:4]`. -/
def fieldY (op : Word) : Reg := regOf (op.extractLsb' 4 4)

/-- `n(op) = op[3:0]`, an unsigned count 0..15. -/
def fieldN (op : Word) : Nat := (op.extractLsb' 0 4).toNat

/-- `kk(op) = op[7:0]`. -/
def fieldKK (op : Word) : Byte := op.extractLsb' 0 8

/-- `nnn(op) = op[11:0]`. -/
def fieldNNN (op : Word) : Addr := op.extractLsb' 0 12

/-! ## Classes (R79 to R86) -/

/-- The decoder's class output: the 34 classes of R82, named as the constructors of `Instr`, and `unknown` (R81). -/
inductive Cls where
  | cls | ret | jp | call | seImm | sneImm | seReg | ldImm | addImm | ldReg | orReg | andReg | xorReg | addReg
  | subReg | shr | subn | shl | sneReg | ldI | jpV0 | rnd | drw | skp | sknp | ldVxDt | ldVxKey | ldDtVx | ldStVx
  | addI | ldFont | ldBcd | storeRegs | loadRegs
  | unknown
deriving DecidableEq, Repr

/-- Secondary dispatch of class 0x0 on the whole word (R80, R84). -/
def classify0 (op : Word) : Cls :=
  if op = 0x00E0 then .cls else if op = 0x00EE then .ret else .unknown

/-- Secondary dispatch of class 0x8 on `n` (R80, R85). -/
def classify8 (n : Nat) : Cls :=
  match n with
  | 0x0 => .ldReg
  | 0x1 => .orReg
  | 0x2 => .andReg
  | 0x3 => .xorReg
  | 0x4 => .addReg
  | 0x5 => .subReg
  | 0x6 => .shr
  | 0x7 => .subn
  | 0xE => .shl
  | _ => .unknown

/-- Secondary dispatch of class 0xE on `kk` (R80, R85). -/
def classifyE (kk : Byte) : Cls :=
  if kk = 0x9E then .skp else if kk = 0xA1 then .sknp else .unknown

/-- Secondary dispatch of class 0xF on `kk` (R80, R85). -/
def classifyF (kk : Byte) : Cls :=
  if kk = 0x07 then .ldVxDt
  else if kk = 0x0A then .ldVxKey
  else if kk = 0x15 then .ldDtVx
  else if kk = 0x18 then .ldStVx
  else if kk = 0x1E then .addI
  else if kk = 0x29 then .ldFont
  else if kk = 0x33 then .ldBcd
  else if kk = 0x55 then .storeRegs
  else if kk = 0x65 then .loadRegs
  else .unknown

/-- Primary dispatch on the class nibble (R79). -/
def classify (op : Word) : Cls :=
  match (fieldC op).toNat with
  | 0x0 => classify0 op
  | 0x1 => .jp
  | 0x2 => .call
  | 0x3 => .seImm
  | 0x4 => .sneImm
  | 0x5 => if fieldN op = 0 then .seReg else .unknown
  | 0x6 => .ldImm
  | 0x7 => .addImm
  | 0x8 => classify8 (fieldN op)
  | 0x9 => if fieldN op = 0 then .sneReg else .unknown
  | 0xA => .ldI
  | 0xB => .jpV0
  | 0xC => .rnd
  | 0xD => .drw
  | 0xE => classifyE (fieldKK op)
  | _ => classifyF (fieldKK op)

/-! ## The decoder (R81) -/

/-- The decoder's output record of R81: the class, and every field of the word whatever its class. -/
structure Decoded where
  cls : Cls
  x   : Reg
  y   : Reg
  n   : Nat
  kk  : Byte
  nnn : Addr
deriving DecidableEq, Repr

/-- `Decode(op)` of R81, a total function of the word. -/
def decodeFields (op : Word) : Decoded where
  cls := classify op
  x   := fieldX op
  y   := fieldY op
  n   := fieldN op
  kk  := fieldKK op
  nnn := fieldNNN op

/-- Why bytes are no instruction: the word is UNKNOWN (R86), or there are not two bytes (R89). -/
inductive DecodeError where
  | unknownInstruction (op : Word)
  | truncated
deriving DecidableEq, Repr

/-- The instruction of a decoded record, with the fields its pattern uses (R77). -/
def Decoded.instr? (d : Decoded) : Option Instr :=
  match d.cls with
  | .cls => some .cls
  | .ret => some .ret
  | .jp => some (.jp d.nnn)
  | .call => some (.call d.nnn)
  | .seImm => some (.seImm d.x d.kk)
  | .sneImm => some (.sneImm d.x d.kk)
  | .seReg => some (.seReg d.x d.y)
  | .ldImm => some (.ldImm d.x d.kk)
  | .addImm => some (.addImm d.x d.kk)
  | .ldReg => some (.ldReg d.x d.y)
  | .orReg => some (.orReg d.x d.y)
  | .andReg => some (.andReg d.x d.y)
  | .xorReg => some (.xorReg d.x d.y)
  | .addReg => some (.addReg d.x d.y)
  | .subReg => some (.subReg d.x d.y)
  | .shr => some (.shr d.x d.y)
  | .subn => some (.subn d.x d.y)
  | .shl => some (.shl d.x d.y)
  | .sneReg => some (.sneReg d.x d.y)
  | .ldI => some (.ldI d.nnn)
  | .jpV0 => some (.jpV0 d.nnn)
  | .rnd => some (.rnd d.x d.kk)
  | .drw => some (.drw d.x d.y d.n)
  | .skp => some (.skp d.x)
  | .sknp => some (.sknp d.x)
  | .ldVxDt => some (.ldVxDt d.x)
  | .ldVxKey => some (.ldVxKey d.x)
  | .ldDtVx => some (.ldDtVx d.x)
  | .ldStVx => some (.ldStVx d.x)
  | .addI => some (.addI d.x)
  | .ldFont => some (.ldFont d.x)
  | .ldBcd => some (.ldBcd d.x)
  | .storeRegs => some (.storeRegs d.x)
  | .loadRegs => some (.loadRegs d.x)
  | .unknown => none

/-- The instruction a word stands for, or the word's rejection by name. -/
def decode (op : Word) : Except DecodeError Instr :=
  match (decodeFields op).instr? with
  | some i => .ok i
  | none => .error (.unknownInstruction op)

/-- The word of two bytes in the order of their addresses, the first the high byte (R56, R58). -/
def joinBytes (hi lo : Byte) : Word := (zext16 hi <<< 8) ||| zext16 lo

/-- The two bytes of a word in the order of their addresses (R58). -/
def wordBytes (op : Word) : List Byte := [op.extractLsb' 8 8, op.extractLsb' 0 8]

/-- The decoder on any bytes: the first instruction and the bytes after it. Every instruction is 2 bytes (R89). -/
def decodeBytes : List Byte → Except DecodeError (Instr × List Byte)
  | hi :: lo :: rest =>
    match decode (joinBytes hi lo) with
    | .ok i => .ok (i, rest)
    | .error e => .error e
  | _ => .error .truncated

/-- The word whose bits opcode_table.json numbers: bit 0 the least significant bit of the one word, the bits from
`nbits` up being 0. -/
def tableWord (nbits w : Nat) : Word := BitVec.ofNat 16 (w % 2 ^ nbits)

/-- What the decoder reads from a word of the opcode table, its bytes laid out high byte first. A row wider than the
one 16-bit word is no instruction (R89). -/
def decodeTableWord (nbits w : Nat) : Option Instr :=
  if nbits ≤ 16 then
    match decodeBytes (wordBytes (tableWord nbits w)) with
    | .ok (i, _) => some i
    | .error _ => none
  else none

/-! ## The encoder (R75, R77, R82) -/

/-- The 4-bit field of a register index. -/
def nibble (r : Reg) : BitVec 4 := BitVec.ofNat 4 r.val

/-- A `cnnn` word. -/
def wordNNN (c : BitVec 4) (nnn : Addr) : Word := zext16 c <<< 12 ||| zext16 nnn

/-- A `cxkk` word. -/
def wordXKK (c : BitVec 4) (x : Reg) (kk : Byte) : Word :=
  zext16 c <<< 12 ||| zext16 (nibble x) <<< 8 ||| zext16 kk

/-- A `cxyn` word. -/
def wordXYN (c : BitVec 4) (x y : Reg) (n : Nat) : Word :=
  zext16 c <<< 12 ||| zext16 (nibble x) <<< 8 ||| zext16 (nibble y) <<< 4 ||| zext16 (BitVec.ofNat 4 n)

/-- The word of an instruction, from the patterns of R82. -/
def encode : Instr → Word
  | .cls => 0x00E0
  | .ret => 0x00EE
  | .jp nnn => wordNNN 0x1 nnn
  | .call nnn => wordNNN 0x2 nnn
  | .seImm x kk => wordXKK 0x3 x kk
  | .sneImm x kk => wordXKK 0x4 x kk
  | .seReg x y => wordXYN 0x5 x y 0x0
  | .ldImm x kk => wordXKK 0x6 x kk
  | .addImm x kk => wordXKK 0x7 x kk
  | .ldReg x y => wordXYN 0x8 x y 0x0
  | .orReg x y => wordXYN 0x8 x y 0x1
  | .andReg x y => wordXYN 0x8 x y 0x2
  | .xorReg x y => wordXYN 0x8 x y 0x3
  | .addReg x y => wordXYN 0x8 x y 0x4
  | .subReg x y => wordXYN 0x8 x y 0x5
  | .shr x y => wordXYN 0x8 x y 0x6
  | .subn x y => wordXYN 0x8 x y 0x7
  | .shl x y => wordXYN 0x8 x y 0xE
  | .sneReg x y => wordXYN 0x9 x y 0x0
  | .ldI nnn => wordNNN 0xA nnn
  | .jpV0 nnn => wordNNN 0xB nnn
  | .rnd x kk => wordXKK 0xC x kk
  | .drw x y n => wordXYN 0xD x y n
  | .skp x => wordXKK 0xE x 0x9E
  | .sknp x => wordXKK 0xE x 0xA1
  | .ldVxDt x => wordXKK 0xF x 0x07
  | .ldVxKey x => wordXKK 0xF x 0x0A
  | .ldDtVx x => wordXKK 0xF x 0x15
  | .ldStVx x => wordXKK 0xF x 0x18
  | .addI x => wordXKK 0xF x 0x1E
  | .ldFont x => wordXKK 0xF x 0x29
  | .ldBcd x => wordXKK 0xF x 0x33
  | .storeRegs x => wordXKK 0xF x 0x55
  | .loadRegs x => wordXKK 0xF x 0x65

/-! ## The opcode map (R82) -/

/-- A row of R82: the words `op` with `op & mask = pattern` have the class `cls`. -/
structure OpcodeRow where
  cls     : Cls
  mask    : Word
  pattern : Word
deriving DecidableEq, Repr

/-- The word is one of the row's (R81). -/
def OpcodeRow.hits (r : OpcodeRow) (op : Word) : Bool := op &&& r.mask == r.pattern

/-- Rows 1 to 9 and 19 to 23 of R82: the classes whose words are told apart by `c`, or by `c` and `n = 0`, and the two
exact words. -/
def opcodeMapPlain : List OpcodeRow :=
  [⟨.cls, 0xFFFF, 0x00E0⟩, ⟨.ret, 0xFFFF, 0x00EE⟩, ⟨.jp, 0xF000, 0x1000⟩, ⟨.call, 0xF000, 0x2000⟩,
   ⟨.seImm, 0xF000, 0x3000⟩, ⟨.sneImm, 0xF000, 0x4000⟩, ⟨.seReg, 0xF00F, 0x5000⟩, ⟨.ldImm, 0xF000, 0x6000⟩,
   ⟨.addImm, 0xF000, 0x7000⟩, ⟨.sneReg, 0xF00F, 0x9000⟩, ⟨.ldI, 0xF000, 0xA000⟩, ⟨.jpV0, 0xF000, 0xB000⟩,
   ⟨.rnd, 0xF000, 0xC000⟩, ⟨.drw, 0xF000, 0xD000⟩]

/-- Rows 10 to 18 of R82. -/
def opcodeMapAlu : List OpcodeRow :=
  [⟨.ldReg, 0xF00F, 0x8000⟩, ⟨.orReg, 0xF00F, 0x8001⟩, ⟨.andReg, 0xF00F, 0x8002⟩, ⟨.xorReg, 0xF00F, 0x8003⟩,
   ⟨.addReg, 0xF00F, 0x8004⟩, ⟨.subReg, 0xF00F, 0x8005⟩, ⟨.shr, 0xF00F, 0x8006⟩, ⟨.subn, 0xF00F, 0x8007⟩,
   ⟨.shl, 0xF00F, 0x800E⟩]

/-- Rows 24 to 34 of R82. -/
def opcodeMapEF : List OpcodeRow :=
  [⟨.skp, 0xF0FF, 0xE09E⟩, ⟨.sknp, 0xF0FF, 0xE0A1⟩, ⟨.ldVxDt, 0xF0FF, 0xF007⟩, ⟨.ldVxKey, 0xF0FF, 0xF00A⟩,
   ⟨.ldDtVx, 0xF0FF, 0xF015⟩, ⟨.ldStVx, 0xF0FF, 0xF018⟩, ⟨.addI, 0xF0FF, 0xF01E⟩, ⟨.ldFont, 0xF0FF, 0xF029⟩,
   ⟨.ldBcd, 0xF0FF, 0xF033⟩, ⟨.storeRegs, 0xF0FF, 0xF055⟩, ⟨.loadRegs, 0xF0FF, 0xF065⟩]

/-- The 34 rows of R82. The order does not matter (R83). -/
def opcodeMap : List OpcodeRow := opcodeMapPlain ++ (opcodeMapAlu ++ opcodeMapEF)

end Sys2Proof
end

