-- ==== Sys2Proof/Machine/Framebuffer.lean ====
section
/-! DEFINITION. The framebuffer (spec/10_state.md R39) and drawing onto it (spec/44_display_keys_timers.md R201, R202). -/

namespace Sys2Proof.Machine

/-- 32 rows of 64 one-bit pixels, `fb[row][col]` (R39). -/
abbrev Framebuffer := Vector (Vector Bool 64) 32

/-- The place of a pixel: its row and its column. -/
abbrev Pixel := Fin 32 × Fin 64

/-- All 2048 pixels 0 (R200, R44). -/
def Framebuffer.clear : Framebuffer := Vector.replicate 32 (Vector.replicate 64 false)

/-- The pixel at a place. -/
def Framebuffer.get (fb : Framebuffer) (p : Pixel) : Bool := fb[p.1][p.2]

/-- XOR the pixel at a place with 1. -/
def Framebuffer.flip (fb : Framebuffer) (p : Pixel) : Framebuffer :=
  fb.set p.1 (fb[p.1].set p.2 (!fb[p.1][p.2]))

/-- Where bit `7 - c` of sprite row `r` falls for a sprite at column `cx` and row `cy`: wrap-around on both axes,
pixel by pixel (R201). -/
def spritePlace (cx cy : Byte) (r c : Nat) : Pixel :=
  (Fin.ofNat 32 (cy.toNat + r), Fin.ofNat 64 (cx.toNat + c))

/-- Whether the pixel at column offset `c` of a sprite row is set: bit 7 is the leftmost (R202). -/
def spriteBit (row : Byte) (c : Nat) : Bool := row.getLsbD (7 - c)

/-- The places of the set pixels of sprite row `r`, left to right. -/
def spriteRowPixels (cx cy : Byte) (r : Nat) (row : Byte) : List Pixel :=
  ((List.range 8).filter (spriteBit row)).map (spritePlace cx cy r)

/-- The places of the set pixels of the sprite rows from row `r` on, row by row. -/
def spritePixelsFrom (cx cy : Byte) : Nat → List Byte → List Pixel
  | _, [] => []
  | r, row :: rows => spriteRowPixels cx cy r row ++ spritePixelsFrom cx cy (r + 1) rows

/-- The places of a sprite's set pixels in the order R201 draws them. -/
def spritePixels (cx cy : Byte) (rows : List Byte) : List Pixel := spritePixelsFrom cx cy 0 rows

/-- One pixel of the loop of R201: the collision is tested before the XOR. -/
def drawPixel (st : Framebuffer × Bool) (p : Pixel) : Framebuffer × Bool :=
  (st.1.flip p, st.2 || st.1.get p)

/-- The pixel loop of R201: the new framebuffer, and `hit`. -/
def drawSprite (fb : Framebuffer) (cx cy : Byte) (rows : List Byte) : Framebuffer × Bool :=
  (spritePixels cx cy rows).foldl drawPixel (fb, false)

end Sys2Proof.Machine
end

