-- ==== Sys2Proof/Config.lean ====
section
/-! DEFINITION. What an implementation fixes: the sizes of spec/00_scope.md R8, the three parameters of R9
(SHIFT_SRC, FONT, RAND), and what the collaborators do (R7, spec/40_cycle.md R114). The defaults of the first two are in Machine/Defaults.lean. -/

namespace Sys2Proof.Machine

/-- An operation on the core (R7). -/
inductive Op where
  | step
  | tickTimers
  | setKey (k : Key) (pressed : Bool)
  | load (rom : List Byte)
deriving DecidableEq, Repr, Inhabited

end Sys2Proof.Machine

namespace Sys2Proof.Config

/-- MEM_SIZE (R8): addresses 0x000 to 0xFFF. -/
def memSize : Nat := 4096

/-- PROG_BASE (R8): where a program is copied and where execution begins (R261). -/
def progBase : Nat := 0x200

/-- MAX_ROM (R8, R262): 4096 - 0x200 bytes. -/
def maxRom : Nat := 3584

/-- STACK_DEPTH (R8). -/
def stackDepth : Nat := 16

/-- SHIFT_SRC of R9: the register that `8xy6` and `8xyE` shift. -/
inductive ShiftSrc where
  | vx
  | vy
deriving DecidableEq, Repr

/-- FONT of R9 and R45: the glyph of hex digit `d` is entry `d`, one byte a row, top row first. -/
abbrev Font := Vector (Vector Byte 5) 16

/-- The parameters of R9 that are fixed for one machine. A machine carries its own in State (log 4), so a statement
over all states holds for every value of them. -/
structure Params where
  shiftSrc : ShiftSrc
  font     : Font
deriving DecidableEq, Repr

/-- RAND of R9 and R163: the byte of the `k`-th draw, a free value (log 3). It has no body, so nothing can be proved
of its value. -/
opaque randomByte : Nat → Byte

/-- The `k`-th operation of an interleaving that nothing fixes (R114), a free value (log 1). It has no body, so what
is proved of a run that takes its operations from here holds for every infinite sequence of operations. -/
opaque laterOp : Nat → Machine.Op

end Sys2Proof.Config
end

