-- ==== Sys2Proof/Machine/Defaults.lean ====
section
/-! DEFINITION. The default values of the parameters of spec/00_scope.md R9: SHIFT_SRC and FONT. -/

namespace Sys2Proof.Machine

/-- The default FONT, the table of R45. PRESUMED (log 5): the source does not give the glyph bytes and the spec
takes them from general knowledge. -/
def defaultFont : Config.Font :=
  #v[#v[0xF0, 0x90, 0x90, 0x90, 0xF0], #v[0x20, 0x60, 0x20, 0x20, 0x70],
     #v[0xF0, 0x10, 0xF0, 0x80, 0xF0], #v[0xF0, 0x10, 0xF0, 0x10, 0xF0],
     #v[0x90, 0x90, 0xF0, 0x10, 0x10], #v[0xF0, 0x80, 0xF0, 0x10, 0xF0],
     #v[0xF0, 0x80, 0xF0, 0x90, 0xF0], #v[0xF0, 0x10, 0x20, 0x40, 0x40],
     #v[0xF0, 0x90, 0xF0, 0x90, 0xF0], #v[0xF0, 0x90, 0xF0, 0x10, 0xF0],
     #v[0xF0, 0x90, 0xF0, 0x90, 0x90], #v[0xE0, 0x90, 0xE0, 0x90, 0xE0],
     #v[0xF0, 0x80, 0x80, 0x80, 0xF0], #v[0xE0, 0x90, 0x90, 0x90, 0xE0],
     #v[0xF0, 0x80, 0xF0, 0x80, 0xF0], #v[0xF0, 0x80, 0xF0, 0x80, 0x80]]

/-- The spec's defaults of R9: SHIFT_SRC = VX (92 D14, log 4) and the FONT of R45 (92 D28, log 5). -/
def defaultParams : Config.Params where
  shiftSrc := .vx
  font     := defaultFont

/-- The byte of FONT at address `a` of 0x000..0x04F (R45: glyph `d` occupies `5*d .. 5*d+4`), and 0x00 beyond it. -/
def fontByte (font : Config.Font) (a : Nat) : Byte :=
  if h : a < 80 then (font[a / 5]'(by omega))[a % 5]'(by omega) else 0

/-- The 80 bytes of FONT in the order of their addresses (R45). -/
def fontBytes (font : Config.Font) : List Byte := (List.range 80).map (fontByte font)

end Sys2Proof.Machine
end

