-- ==== Sys2Proof/Machine/Memory.lean ====
section
/-! DEFINITION. The contents of the 4096-byte memory (spec/20_memory.md R50) as a list of cells in one canonical form.
Bounds are checked in Machine/Ops.lean; here an address is a plain number. -/

namespace Sys2Proof.Machine

/-- Memory, as the cells that differ from the reset contents, by rising address. -/
abbrev Memory := List Host.Cell

/-- What an address that is not listed reads as: the reset contents of R44 with the default FONT (R45) at
0x000..0x04F and 0x00 elsewhere (R51, R53). PRESUMED for the font bytes (log 5). -/
def Memory.unlisted (a : Nat) : Byte := fontByte defaultFont a

/-- The byte at an address. -/
def Memory.read : Memory → Nat → Byte
  | [], a => Memory.unlisted a
  | c :: m, a => if c.1 = a then c.2 else Memory.read m a

/-- `m` with the cell of `a`, an address below all of `m`'s, put in front unless it says nothing new. -/
def Memory.putCell (a : Nat) (v : Byte) (m : Memory) : Memory :=
  if v = Memory.unlisted a then m else (a, v) :: m

/-- Store one byte, keeping the canonical form. -/
def Memory.write : Memory → Nat → Byte → Memory
  | [], a, v => Memory.putCell a v []
  | c :: m, a, v =>
    if a < c.1 then Memory.putCell a v (c :: m)
    else if a = c.1 then Memory.putCell a v m
    else c :: Memory.write m a v

/-- Store bytes at ascending addresses from `a` on (R55). -/
def Memory.writeBytes : Memory → Nat → List Byte → Memory
  | m, _, [] => m
  | m, a, v :: vs => Memory.writeBytes (Memory.write m a v) (a + 1) vs

/-- The `n` bytes from address `a` on, in that order (R54). -/
def Memory.readBytes (m : Memory) (a n : Nat) : List Byte := (List.range n).map fun j => Memory.read m (a + j)

/-- The canonical form: addresses strictly rising, all of them of the address space, and no cell equal to what an
unlisted address reads as. Equal memories are then equal lists. -/
abbrev Memory.wf (m : Memory) : Prop :=
  m.Pairwise (fun c d => c.1 < d.1) ∧ ∀ c ∈ m, c.1 < Config.memSize ∧ c.2 ≠ Memory.unlisted c.1

end Sys2Proof.Machine
end

