-- ==== Sys2Proof/Machine/State.lean ====
section
/-! DEFINITION. Everything the core holds (spec/10_state.md R20), the errors it records (spec/60_exceptions.md), the
model's own three fields (logs 1, 2, 3), and the state after reset (R44). -/

namespace Sys2Proof.Machine

/-! ## Errors and results -/

/-- The three fatal kinds (R230, R238). -/
inductive FatalKind where
  | outOfBounds
  | stackOverflow
  | stackUnderflow
deriving DecidableEq, Repr

/-- A fatal error with its recorded info (R230, R238): the start and the length of the access, or `sp`. -/
inductive FatalError where
  | outOfBounds (start len : Nat)
  | stackOverflow (sp : Nat)
  | stackUnderflow (sp : Nat)
deriving DecidableEq, Repr

/-- The fault record of R236 and R238. Its `kind`, `code` and `info` are read off `error` (Machine/Ops.lean). -/
structure FaultRecord where
  /-- the fatal error: kind and info -/
  error : FatalError
  /-- the pc at the fault -/
  pc    : Word
  /-- the opcode, or none for a fetch fault -/
  op    : Option Word
deriving DecidableEq, Repr

/-- The statuses `Step` returns (R108), and the error `Load` returns (R262). -/
inductive Status where
  | ok
  | unknown (op : Word)
  | waiting
  | faultStatus (f : FaultRecord)
  | romTooLarge (len : Nat)
deriving DecidableEq, Repr

/-- `Result(status, redraw, timers)` of R108. -/
structure Result where
  status : Status
  redraw : Bool
  timers : Bool
deriving DecidableEq, Repr

/-- What the collaborators do once the operations written out are done (R114, log 1). -/
inductive Later where
  /-- these operations over and over; `Step` over and over where there are none -/
  | repeating (ops : List Op)
  /-- the free operations of `Config.laterOp` from the `k`-th on -/
  | free (k : Nat)
deriving DecidableEq, Repr

/-- The collaborators' choice of an interleaving (R114, log 1): the operations written out, oldest first, and what
comes after them for ever. -/
structure Schedule where
  soon  : List Op
  later : Later
deriving DecidableEq, Repr

/-! ## The state -/

/-- The core's state. -/
structure State where
  /-- memory (R50) -/
  mem         : Memory
  /-- the general registers V0 to VF (R21) -/
  V           : Vector Byte 16
  /-- the index register (R25) -/
  I           : Word
  /-- the program counter (R27) -/
  pc          : Word
  /-- the return-address stack (R30) -/
  stack       : Vector Word 16
  /-- the stack pointer, 0..16 (R31) -/
  sp          : Fin 17
  /-- the delay timer (R35) -/
  DT          : Byte
  /-- the sound timer (R36) -/
  ST          : Byte
  /-- the framebuffer (R39) -/
  fb          : Framebuffer
  /-- the keypad (R40) -/
  key         : Vector Bool 16
  /-- the register a pending `Fx0A` will write (R41) -/
  awaitingKey : Option Reg
  /-- the last fetched opcode (R42) -/
  cur         : Word
  /-- the first fatal error (R43) -/
  fault       : Option FaultRecord
  /-- the parameters of this machine (R9, log 4): no operation writes them -/
  params      : Config.Params
  /-- the model's own: what the last `Step` or `Load` returned (R108, R262, log 2) -/
  result      : Result
  /-- the model's own: the operations the collaborators do from here on (R114, log 1) -/
  schedule    : Schedule
  /-- the model's own: how many bytes RAND has given (R163, log 3) -/
  draws       : Nat
deriving DecidableEq, Repr

/-- A step's way to stop with a fault. There is none: every fatal error the spec describes is a next state with a
fault record (R236), and every operation of R7 ends in a state. So this type has no constructor, which is safe
(log 7). -/
inductive Fault
deriving DecidableEq, Repr

/-- A step's way to refuse. -/
inductive Refusal where
  /-- Raised by an arm of exec whose instruction has no meaning yet; safe. No arm raises it now. -/
  | notModelled (mnemonic : String)
deriving DecidableEq, Repr

/-- How a step of this machine ends. -/
abbrev Outcome := Host.Outcome State Fault Refusal

/-- The state after `Load` of an empty program into a machine with the default parameters (R44, R260, R261): nothing
is listed in memory. The values of V, I, the stack, the timers, the keypad and the hidden state are the spec's own
decisions D3 to D9 (log 6); `schedule` and `draws` are DESIGN CHOICE (logs 1, 3). -/
def State.reset : State where
  mem         := []
  V           := Vector.replicate 16 0
  I           := 0
  pc          := 0x200
  stack       := Vector.replicate 16 0
  sp          := 0
  DT          := 0
  ST          := 0
  fb          := Framebuffer.clear
  key         := Vector.replicate 16 false
  awaitingKey := none
  cur         := 0
  fault       := none
  params      := defaultParams
  result      := { status := .ok, redraw := false, timers := false }
  schedule    := { soon := [], later := .repeating [] }
  draws       := 0

end Sys2Proof.Machine
end

