-- ==== Sys2Proof/Machine/Ops.lean ====
section
/-! DEFINITION. chip8_memory_read_write (spec/20_memory.md R54 to R56, R63, R64): the bounds-checked accesses to memory,
the stack and the keypad; the general registers; raising a fatal error (spec/60_exceptions.md R236); and how an
instruction ends (spec/40_cycle.md R106, R108). -/

namespace Sys2Proof.Machine

/-! ## General registers (R21, R22): none is hardwired -/

/-- Read a general register. -/
def State.reg (s : State) (x : Reg) : Byte := s.V[x]

/-- Write a general register. -/
def State.setReg (s : State) (x : Reg) (v : Byte) : State := { s with V := s.V.set x v }

/-- The index of VF (R22). -/
def vf : Reg := 15

/-- Write bytes to registers of ascending index from `j` on (R185). -/
def setRegsFrom (V : Vector Byte 16) (j : Nat) : List Byte → Vector Byte 16
  | [] => V
  | b :: bs => setRegsFrom (V.setIfInBounds j b) (j + 1) bs

/-! ## Memory (R54, R55, R56) -/

/-- `MemRead(addr, n)` for n >= 1 (R54). The sum is exact and does not wrap. -/
def memRead (m : Memory) (addr : Word) (n : Nat) : Except FatalError (List Byte) :=
  if addr.toNat + n - 1 > 0xFFF then .error (.outOfBounds addr.toNat n)
  else .ok (m.readBytes addr.toNat n)

/-- `MemWrite(addr, n, bytes)` for n >= 1 (R55). The check covers all bytes before any is written. -/
def memWrite (m : Memory) (addr : Word) (bytes : List Byte) : Except FatalError Memory :=
  if addr.toNat + bytes.length - 1 > 0xFFF then .error (.outOfBounds addr.toNat bytes.length)
  else .ok (m.writeBytes addr.toNat bytes)

/-- `Fetch(pc)` (R56): big-endian, and it faults exactly when `pc >= 0xFFF` (90 C1). -/
def fetch (m : Memory) (pc : Word) : Except FatalError Word :=
  if pc.toNat + 1 > 0xFFF then .error (.outOfBounds pc.toNat 2)
  else .ok (joinBytes (m.read pc.toNat) (m.read (pc.toNat + 1)))

/-! ## Stack (R63) -/

/-- `StackPush(v)` (R63): the check comes before the write. -/
def stackPush (v : Word) (s : State) : Except FatalError State :=
  if h : s.sp.val < 16 then
    .ok { s with stack := s.stack.set s.sp.val v, sp := ⟨s.sp.val + 1, by omega⟩ }
  else .error (.stackOverflow s.sp.val)

/-- `StackPop()` (R63): the entry popped is not cleared (R31, R125). -/
def stackPop (s : State) : Except FatalError (Word × State) :=
  if h : 0 < s.sp.val then
    .ok (s.stack[s.sp.val - 1]'(by omega), { s with sp := ⟨s.sp.val - 1, by omega⟩ })
  else .error (.stackUnderflow s.sp.val)

/-! ## Keypad (R64) -/

/-- `KeyRead(k)`, k the 8-bit value of a register (R64). -/
def keyRead (keys : Vector Bool 16) (k : Byte) : Except FatalError Bool :=
  if h : k.toNat > 0xF then .error (.outOfBounds k.toNat 1)
  else .ok (keys[k.toNat]'(by omega))

/-! ## Errors (R230, R236 to R238) -/

/-- The kind of a fatal error. -/
def FatalError.kind : FatalError → FatalKind
  | .outOfBounds _ _ => .outOfBounds
  | .stackOverflow _ => .stackOverflow
  | .stackUnderflow _ => .stackUnderflow

/-- The code of a fatal kind (R230, R237). -/
def FatalKind.code : FatalKind → Nat
  | .outOfBounds => 1
  | .stackOverflow => 2
  | .stackUnderflow => 3

/-- The `kind` field of a fault record (R238). -/
def FaultRecord.kind (f : FaultRecord) : FatalKind := f.error.kind

/-- The `code` field of a fault record (R238). -/
def FaultRecord.code (f : FaultRecord) : Nat := f.kind.code

/-- The `info` field of a fault record (R238): the start and length of the access, or `sp`. -/
def FaultRecord.info (f : FaultRecord) : List Nat :=
  match f.error with
  | .outOfBounds start len => [start, len]
  | .stackOverflow sp => [sp]
  | .stackUnderflow sp => [sp]

/-- The code of a status (R237). -/
def Status.code : Status → Nat
  | .ok => 0
  | .unknown _ => 4
  | .waiting => 6
  | .faultStatus f => f.code
  | .romTooLarge _ => 5

/-- `Result(status, redraw, timers)` without hints: the result of everything but a completed instruction. -/
def plainResult (st : Status) : Result := { status := st, redraw := false, timers := false }

/-- Raising a fatal error, for every operation that can (R236): the record is written, the step returns
`FaultStatus(fault)`, and nothing else changes. There is no trap entry, no handler and no return from one (R241,
R242): only `Load` clears the record (Machine/Collaborators.lean). `op` is none for a fetch fault. -/
def raise (e : FatalError) (op : Option Word) (s : State) : State :=
  let f : FaultRecord := { error := e, pc := s.pc, op := op }
  { s with fault := some f, result := plainResult (.faultStatus f) }

/-- Go on with what a checked access gives, or raise its error from the instruction in `cur`, before any state is
written (R57). -/
def orRaise {α : Type} (access : Except FatalError α) (s : State) (k : α → Outcome) : Outcome :=
  match access with
  | .ok a => k a
  | .error e => .next (raise e (some s.cur) s)

/-! ## How an instruction ends (R106, R108 to R110) -/

/-- The result of a completed instruction with its hints. -/
def okResult (redraw timers : Bool) : Result := { status := .ok, redraw := redraw, timers := timers }

/-- Add to the program counter. -/
def State.advance (s : State) (k : Word) : State := { s with pc := s.pc + k }

/-- The step returns `Ok` with these hints. -/
def State.returning (s : State) (redraw timers : Bool) : State := { s with result := okResult redraw timers }

/-- An ordinary instruction ends: `pc + 2`, status `Ok`, the hints given. -/
def complete (redraw timers : Bool) (s : State) : Outcome := .next ((s.advance 2).returning redraw timers)

/-- A skip ends: `pc + 4` when taken, else `pc + 2`. -/
def skipIf (taken : Bool) (s : State) : Outcome :=
  .next ((s.advance (if taken then 4 else 2)).returning false false)

/-- A control transfer ends: `pc` is the target, unchecked and not advanced (R133). -/
def jumpTo (target : Word) (s : State) : Outcome := .next ({ s with pc := target }.returning false false)

end Sys2Proof.Machine
end

