-- ==== Sys2Proof/Machine/Collaborators.lean ====
section
/-! DEFINITION. The operations of the collaborators (spec/40_cycle.md R111 to R113, spec/70_reset_and_hazards.md R260)
and what they observe (spec/10_state.md R36). -/

namespace Sys2Proof.Machine

/-- Count a timer down, never below zero (R111). -/
def countDown (t : Byte) : Byte := if t.toNat > 0 then t - 1 else t

/-- `TickTimers()` (R111), whatever `fault` and `awaitingKey` hold. It returns nothing, so `result` stays. -/
def tickTimers (s : State) : State := { s with DT := countDown s.DT, ST := countDown s.ST }

/-- The end of a pending wait for a key (R113): `pc` still holds the address of the `Fx0A`. -/
def resolveWait (r : Reg) (k : Key) (s : State) : State :=
  { s.setReg r (BitVec.ofNat 8 k.val) with awaitingKey := none, pc := s.pc + 2 }

/-- `SetKey(k, pressed)` (R112), whatever `fault` holds. Only a press ends a wait. -/
def setKey (k : Key) (pressed : Bool) (s : State) : State :=
  let t := { s with key := s.key.set k pressed }
  match pressed, s.awaitingKey with
  | true, some r => resolveWait r k t
  | _, _ => t

/-- Memory right after `Load` (R260, R263): FONT at 0x000, 0x00 above it, the ROM verbatim from 0x200 on. -/
def loadedMemory (font : Config.Font) (rom : List Byte) : Memory :=
  Memory.writeBytes (Memory.writeBytes [] 0 (fontBytes font)) Config.progBase rom

/-- `Load(rom)`, the core's reset (R260 to R263). A ROM that is too large changes nothing but what the operation
returns. The parameters and the model's own `schedule` and `draws` are no part of what is rebuilt (log 15). -/
def load (rom : List Byte) (s : State) : State :=
  if rom.length > Config.maxRom then { s with result := plainResult (.romTooLarge rom.length) }
  else
    { State.reset with
      mem      := loadedMemory s.params.font rom
      params   := s.params
      schedule := s.schedule
      draws    := s.draws }

/-- What the audio collaborator observes: `ST > 0` (R36). -/
def State.tone (s : State) : Bool := decide (s.ST.toNat > 0)

end Sys2Proof.Machine
end

