-- ==== Sys2Proof/Machine/Flags.lean ====
section
/-! DEFINITION. The flag outcomes of spec/10_state.md R33, each computed from exact integers (spec/00_scope.md R11).
The collision flag of `Dxyn` is `hit` of drawSprite (Machine/Framebuffer.lean). -/

namespace Sys2Proof.Machine

/-- Carry out of bit 7 of `a + b` (R150 ADD, R158). -/
def carryOut (a b : Byte) : Bool := decide (a.toNat + b.toNat > 0xFF)

/-- NOT borrow of `a - b`: 1 when `a >= b`, equal operands included (R150 SUB and SUBN, R159, R161, 92 D16). -/
def notBorrow (a b : Byte) : Bool := decide (a.toNat ≥ b.toNat)

/-- The bit a right shift by one shifts out (R160). -/
def outRight (s : Byte) : Bool := s.getLsbD 0

/-- The bit a left shift by one shifts out (R162). -/
def outLeft (s : Byte) : Bool := s.getLsbD 7

end Sys2Proof.Machine
end

