-- ==== Sys2Proof/Machine/Operands.lean ====
section
/-! DEFINITION. How operands are formed from instruction fields and state: the shifted register of SHIFT_SRC
(spec/42_alu.md R160), the jump target with offset (spec/41_control_flow.md R128), the glyph address
(spec/43_index_memory.md R182), the decimal digits (R183) and the register blocks (R184). -/

namespace Sys2Proof.Machine

/-- The target of `1nnn` and `2nnn`: `zext_16(nnn)` (R78). -/
def target (nnn : Addr) : Word := zext16 nnn

/-- The target of `Bnnn`: `zext_16(nnn) + zext_16(V[0])` (R128), at most 0x10FE. -/
def targetV0 (nnn : Addr) (s : State) : Word := zext16 nnn + zext16 (s.reg 0)

/-- The address of the glyph of a digit: `5 * zext_16(V[x])`, not masked (R182, 92 D18). -/
def glyphAddr (digit : Byte) : Word := 5 * zext16 digit

/-- The three decimal digits of a byte, most significant first (R183). -/
def bcdDigits (v : Byte) : List Byte :=
  [BitVec.ofNat 8 (v.toNat / 100), BitVec.ofNat 8 (v.toNat / 10 % 10), BitVec.ofNat 8 (v.toNat % 10)]

/-- `[V[0], V[1], ..., V[x]]` (R184): the range is inclusive. -/
def regBlock (x : Reg) (s : State) : List Byte := s.V.toList.take (x.val + 1)

end Sys2Proof.Machine
end

