-- ==== Sys2Proof/Machine/Alu.lean ====
section
/-! DEFINITION. chip8_alu (spec/42_alu.md R150) and the flag write discipline of the `8xy_` instructions (R151). -/

namespace Sys2Proof.Machine

/-- The ALU's operations (R150). -/
inductive AluOp where
  | ld | or | and | xor | add | sub | subn | shr | shl | addk
deriving DecidableEq, Repr

/-- The ALU's outputs: the result, and the flag when the flag-write enable is 1 (R150). -/
structure AluOut where
  r    : Byte
  flag : Option Bool
deriving DecidableEq, Repr

/-- The operand of a shift: `a` if SHIFT_SRC = VX, else `b` (R150). -/
def shiftOperand (src : Config.ShiftSrc) (a b : Byte) : Byte :=
  match src with
  | .vx => a
  | .vy => b

/-- `ALU(op, a, b)` of R150. Addition and subtraction of bytes are modulo 2^8. -/
def alu (src : Config.ShiftSrc) (op : AluOp) (a b : Byte) : AluOut :=
  match op with
  | .ld   => { r := b, flag := none }
  | .or   => { r := a ||| b, flag := none }
  | .and  => { r := a &&& b, flag := none }
  | .xor  => { r := a ^^^ b, flag := none }
  | .add  => { r := a + b, flag := some (carryOut a b) }
  | .sub  => { r := a - b, flag := some (notBorrow a b) }
  | .subn => { r := b - a, flag := some (notBorrow b a) }
  | .shr  => let s := shiftOperand src a b; { r := s >>> 1, flag := some (outRight s) }
  | .shl  => let s := shiftOperand src a b; { r := s <<< 1, flag := some (outLeft s) }
  | .addk => { r := a + b, flag := none }

/-- Write the ALU's outputs: the flag FIRST, the destination SECOND (R151). -/
def writeAlu (x : Reg) (out : AluOut) (s : State) : State :=
  match out.flag with
  | some f => (s.setReg vf (boolByte f)).setReg x out.r
  | none => s.setReg x out.r

/-- Every `8xy_` instruction (R151): both operands are read first. -/
def aluRegReg (op : AluOp) (x y : Reg) (s : State) : Outcome :=
  complete false false (writeAlu x (alu s.params.shiftSrc op (s.reg x) (s.reg y)) s)

/-- An ALU operation on a register and an immediate byte (R150, R153). -/
def aluRegImm (op : AluOp) (x : Reg) (kk : Byte) (s : State) : Outcome :=
  complete false false (writeAlu x (alu s.params.shiftSrc op (s.reg x) kk) s)

end Sys2Proof.Machine
end

