-- ==== Sys2Proof/Machine/Arithmetic.lean ====
section
/-! DEFINITION. Register arithmetic and logic (spec/42_alu.md R152 to R163). -/

namespace Sys2Proof.Machine

/-- `6xkk` LD Vx, kk (R152). -/
def execLdImm (x : Reg) (kk : Byte) (s : State) : Outcome := complete false false (s.setReg x kk)

/-- `7xkk` ADD Vx, kk (R153): no flag, even on wrap. -/
def execAddImm (x : Reg) (kk : Byte) (s : State) : Outcome := aluRegImm .addk x kk s

/-- `8xy0` LD Vx, Vy (R154). -/
def execLdReg (x y : Reg) (s : State) : Outcome := aluRegReg .ld x y s

/-- `8xy1` OR Vx, Vy (R155). -/
def execOrReg (x y : Reg) (s : State) : Outcome := aluRegReg .or x y s

/-- `8xy2` AND Vx, Vy (R156). -/
def execAndReg (x y : Reg) (s : State) : Outcome := aluRegReg .and x y s

/-- `8xy3` XOR Vx, Vy (R157). -/
def execXorReg (x y : Reg) (s : State) : Outcome := aluRegReg .xor x y s

/-- `8xy4` ADD Vx, Vy (R158). -/
def execAddReg (x y : Reg) (s : State) : Outcome := aluRegReg .add x y s

/-- `8xy5` SUB Vx, Vy (R159). -/
def execSubReg (x y : Reg) (s : State) : Outcome := aluRegReg .sub x y s

/-- `8xy6` SHR Vx, Vy (R160). -/
def execShr (x y : Reg) (s : State) : Outcome := aluRegReg .shr x y s

/-- `8xy7` SUBN Vx, Vy (R161). -/
def execSubn (x y : Reg) (s : State) : Outcome := aluRegReg .subn x y s

/-- `8xyE` SHL Vx, Vy (R162). -/
def execShl (x y : Reg) (s : State) : Outcome := aluRegReg .shl x y s

/-- `Cxkk` RND Vx, kk (R163): a fresh draw, a free value (log 3). -/
def execRnd (x : Reg) (kk : Byte) (s : State) : Outcome :=
  complete false false { s.setReg x (Config.randomByte s.draws &&& kk) with draws := s.draws + 1 }

end Sys2Proof.Machine
end

