-- ==== Sys2Proof/Machine/Control.lean ====
section
/-! DEFINITION. Control flow (spec/41_control_flow.md): returns, jumps, calls and the register and immediate skips. -/

namespace Sys2Proof.Machine

/-- `00EE` RET (R125): no + 2, since the popped value is the address after the call. -/
def execRet (s : State) : Outcome := orRaise (stackPop s) s fun p => jumpTo p.1 p.2

/-- `1nnn` JP nnn (R126). -/
def execJp (nnn : Addr) (s : State) : Outcome := jumpTo (target nnn) s

/-- `2nnn` CALL nnn (R127): `pc + 2` is pushed (90 C7). -/
def execCall (nnn : Addr) (s : State) : Outcome := orRaise (stackPush (s.pc + 2) s) s fun t => jumpTo (target nnn) t

/-- `Bnnn` JP V0, nnn (R128). -/
def execJpV0 (nnn : Addr) (s : State) : Outcome := jumpTo (targetV0 nnn s) s

/-- `3xkk` SE Vx, kk (R129). -/
def execSeImm (x : Reg) (kk : Byte) (s : State) : Outcome := skipIf (s.reg x == kk) s

/-- `4xkk` SNE Vx, kk (R130). -/
def execSneImm (x : Reg) (kk : Byte) (s : State) : Outcome := skipIf (s.reg x != kk) s

/-- `5xy0` SE Vx, Vy (R131). -/
def execSeReg (x y : Reg) (s : State) : Outcome := skipIf (s.reg x == s.reg y) s

/-- `9xy0` SNE Vx, Vy (R132). -/
def execSneReg (x y : Reg) (s : State) : Outcome := skipIf (s.reg x != s.reg y) s

end Sys2Proof.Machine
end

