-- ==== Sys2Proof/Machine/Display.lean ====
section
/-! DEFINITION. The display instructions (spec/44_display_keys_timers.md R200, R201). Both return the redraw hint
(spec/40_cycle.md R109). -/

namespace Sys2Proof.Machine

/-- `00E0` CLS (R200). -/
def execCls (s : State) : Outcome := complete true false { s with fb := Framebuffer.clear }

/-- The sprite rows of `Dxyn`: the bytes at `I`, none when n = 0 (R201). -/
def spriteRows (n : Nat) (s : State) : Except FatalError (List Byte) :=
  if n = 0 then .ok [] else memRead s.mem s.I n

/-- `Dxyn` DRW Vx, Vy, n (R201): V[x] and V[y] are read first, VF is written after the pixels. -/
def execDrw (x y : Reg) (n : Nat) (s : State) : Outcome :=
  orRaise (spriteRows n s) s fun rows =>
    let drawn := drawSprite s.fb (s.reg x) (s.reg y) rows
    complete true false ({ s with fb := drawn.1 }.setReg vf (boolByte drawn.2))

end Sys2Proof.Machine
end

