-- ==== Sys2Proof/Machine/Index.lean ====
section
/-! DEFINITION. The index register and memory transfer (spec/43_index_memory.md R180 to R185). The one data addressing
mode is `I + j`, and no access changes `I` (R186). -/

namespace Sys2Proof.Machine

/-- `Annn` LD I, nnn (R180). -/
def execLdI (nnn : Addr) (s : State) : Outcome := complete false false { s with I := zext16 nnn }

/-- `Fx1E` ADD I, Vx (R181): modulo 2^16, and VF is not written. -/
def execAddI (x : Reg) (s : State) : Outcome := complete false false { s with I := s.I + zext16 (s.reg x) }

/-- `Fx29` LD F, Vx (R182). -/
def execLdFont (x : Reg) (s : State) : Outcome := complete false false { s with I := glyphAddr (s.reg x) }

/-- Store bytes at `I` on, or raise and store nothing (R55, R57). -/
def storeAtI (bytes : List Byte) (s : State) : Outcome :=
  orRaise (memWrite s.mem s.I bytes) s fun m => complete false false { s with mem := m }

/-- `Fx33` LD B, Vx (R183). -/
def execLdBcd (x : Reg) (s : State) : Outcome := storeAtI (bcdDigits (s.reg x)) s

/-- `Fx55` LD [I], Vx (R184). -/
def execStoreRegs (x : Reg) (s : State) : Outcome := storeAtI (regBlock x s) s

/-- `Fx65` LD Vx, [I] (R185). -/
def execLoadRegs (x : Reg) (s : State) : Outcome :=
  orRaise (memRead s.mem s.I (x.val + 1)) s fun bytes =>
    complete false false { s with V := setRegsFrom s.V 0 bytes }

end Sys2Proof.Machine
end

