-- ==== Sys2Proof/Machine/KeysTimers.lean ====
section
/-! DEFINITION. The keypad and timer instructions (spec/44_display_keys_timers.md R203 to R208). -/

namespace Sys2Proof.Machine

/-- `Ex9E` SKP Vx (R203). -/
def execSkp (x : Reg) (s : State) : Outcome := orRaise (keyRead s.key (s.reg x)) s fun p => skipIf p s

/-- `ExA1` SKNP Vx (R204). -/
def execSknp (x : Reg) (s : State) : Outcome := orRaise (keyRead s.key (s.reg x)) s fun p => skipIf (!p) s

/-- `Fx07` LD Vx, DT (R205), with the timers hint (R110). -/
def execLdVxDt (x : Reg) (s : State) : Outcome := complete false true (s.setReg x s.DT)

/-- `Fx15` LD DT, Vx (R206), with the timers hint (R110). -/
def execLdDtVx (x : Reg) (s : State) : Outcome := complete false true { s with DT := s.reg x }

/-- `Fx18` LD ST, Vx (R207), with the timers hint (R110). -/
def execLdStVx (x : Reg) (s : State) : Outcome := complete false true { s with ST := s.reg x }

/-- `Fx0A` LD Vx, K (R208): the wait begins and `pc` is NOT advanced; `SetKey` ends it (R113). -/
def execLdVxKey (x : Reg) (s : State) : Outcome := .next ({ s with awaitingKey := some x }.returning false false)

end Sys2Proof.Machine
end

