-- ==== Sys2Proof/Machine/Cycle.lean ====
section
/-! DEFINITION. `Step()` (spec/40_cycle.md R100) and the choice of the next operation (R114). -/

namespace Sys2Proof.Machine

/-- The UNKNOWN handler (R107): `pc + 2`, status `Unknown(op)`. -/
def execUnknown (op : Word) (s : State) : State :=
  { s.advance 2 with result := plainResult (.unknown op) }

/-- Decode and execute the word just fetched, after writing it to `cur` (R104, R105). -/
def runWord (op : Word) (s : State) : Outcome :=
  let s := { s with cur := op }
  match decode op with
  | .ok i => exec i s
  | .error _ => .next (execUnknown op s)

/-- `Step()` (R100): the checks run in the order of R239. -/
def coreStep (s : State) : Outcome :=
  match s.fault, s.awaitingKey with
  | some f, _ => .next { s with result := plainResult (.faultStatus f) }
  | none, some _ => .next { s with result := plainResult .waiting }
  | none, none =>
    match fetch s.mem s.pc with
    | .error e => .next (raise e none s)
    | .ok op => runWord op s

/-- One operation of R7 on the core. -/
def perform (op : Op) (s : State) : Outcome :=
  match op with
  | .step => coreStep s
  | .tickTimers => .next (tickTimers s)
  | .setKey k pressed => .next (setKey k pressed s)
  | .load rom => .next (load rom s)

/-- The next operation of a schedule and the schedule after it (R114, log 1). -/
def Schedule.take (sch : Schedule) : Op × Schedule :=
  match sch.soon, sch.later with
  | op :: ops, later => (op, { soon := ops, later := later })
  | [], .repeating [] => (.step, sch)
  | [], .repeating (op :: ops) => (op, { soon := ops, later := .repeating (op :: ops) })
  | [], .free k => (Config.laterOp k, { soon := [], later := .free (k + 1) })

/-- The next operation, and the state whose schedule it has been taken off. -/
def nextOp (s : State) : Op × State :=
  let p := s.schedule.take
  (p.1, { s with schedule := p.2 })

/-- The first address of an instruction that can be fetched: `pc` where it can be, else the entry point. -/
def fetchAddr (pc : Word) : Word := if pc.toNat ≤ 0xFFE then pc else 0x200

/-- A state whose next step fetches `op`: the word is stored at `pc`, high byte first, and whatever keeps `Step` from
fetching there is taken away (a recorded fault, a wait, a pc that cannot be fetched). A `Step` comes first, before what
was scheduled. -/
def withWord (s : State) (op : Word) : State :=
  { s with
    mem         := s.mem.writeBytes (fetchAddr s.pc).toNat (wordBytes op)
    pc          := fetchAddr s.pc
    awaitingKey := none
    fault       := none
    schedule    := { s.schedule with soon := .step :: s.schedule.soon } }

end Sys2Proof.Machine
end

