-- ==== Sys2Proof/Machine/Step.lean ====
section
/-! DEFINITION. One step of the model: the next operation of spec/00_scope.md R7. -/

namespace Sys2Proof.Machine

/-- The next operation of the schedule (R114, log 1). -/
def step (s : State) : Host.Outcome State Fault Refusal := perform (nextOp s).1 (nextOp s).2

/-- `s` with the opcode-table word `w` stored where the next step fetches (log 11). -/
def State.withFetchWord (s : State) (nbits w : Nat) : State := withWord s (tableWord nbits w)

end Sys2Proof.Machine
end

