-- ==== Sys2Proof/Safety.lean ====
section
/-! DEFINITION. The terms claims are stated in: what an operation leaves unchanged, when an instruction faults
(spec/60_exceptions.md R231 to R233) and where it goes on (spec/40_cycle.md R106), the invariant of the core, its
reachable states, and what counts as a safe run. -/

namespace Sys2Proof.Machine

/-! ## Frames -/

/-- The pieces of state an instruction may write beside `pc`, `result` and the general registers. -/
inductive Part where
  | I | mem | stack | sp | DT | ST | fb | key | awaitingKey | fault | draws
deriving DecidableEq, Repr

/-- From `s` to `t` nothing changed but `pc`, `result`, the pieces in `parts` and the registers in `regs`. Memory is
compared byte by byte. No instruction writes the last three. -/
structure Frame (s t : State) (parts : List Part) (regs : List Reg) : Prop where
  regs        : ∀ r, r ∉ regs → t.reg r = s.reg r
  I           : .I ∉ parts → t.I = s.I
  mem         : .mem ∉ parts → ∀ a, t.mem.read a = s.mem.read a
  stack       : .stack ∉ parts → t.stack = s.stack
  sp          : .sp ∉ parts → t.sp = s.sp
  DT          : .DT ∉ parts → t.DT = s.DT
  ST          : .ST ∉ parts → t.ST = s.ST
  fb          : .fb ∉ parts → t.fb = s.fb
  key         : .key ∉ parts → t.key = s.key
  awaitingKey : .awaitingKey ∉ parts → t.awaitingKey = s.awaitingKey
  fault       : .fault ∉ parts → t.fault = s.fault
  draws       : .draws ∉ parts → t.draws = s.draws
  cur         : t.cur = s.cur
  params      : t.params = s.params
  schedule    : t.schedule = s.schedule

/-! ## When an instruction faults, and where it goes on -/

/-- An access to `len` bytes from `start` on that leaves the memory (R54, R55). -/
def outside (start : Word) (len : Nat) : Option FatalError :=
  if start.toNat + len - 1 > 0xFFF then some (.outOfBounds start.toNat len) else none

/-- A key index above 0xF (R64). -/
def noKey (k : Byte) : Option FatalError := if k.toNat > 0xF then some (.outOfBounds k.toNat 1) else none

/-- The one error an instruction can meet (R231, R232, R233, R239), and none where it executes. -/
def faultOf : Instr → State → Option FatalError
  | .ret, s => if s.sp.val = 0 then some (.stackUnderflow 0) else none
  | .call _, s => if s.sp.val = 16 then some (.stackOverflow 16) else none
  | .drw _ _ n, s => if n = 0 then none else outside s.I n
  | .ldBcd _, s => outside s.I 3
  | .storeRegs x, s => outside s.I (x.val + 1)
  | .loadRegs x, s => outside s.I (x.val + 1)
  | .skp x, s => noKey (s.reg x)
  | .sknp x, s => noKey (s.reg x)
  | .cls, _ | .jp _, _ | .seImm _ _, _ | .sneImm _ _, _ | .seReg _ _, _ | .ldImm _ _, _ | .addImm _ _, _ => none
  | .ldReg _ _, _ | .orReg _ _, _ | .andReg _ _, _ | .xorReg _ _, _ | .addReg _ _, _ | .subReg _ _, _ => none
  | .shr _ _, _ | .subn _ _, _ | .shl _ _, _ | .sneReg _ _, _ | .ldI _, _ | .jpV0 _, _ | .rnd _ _, _ => none
  | .ldVxDt _, _ | .ldVxKey _, _ | .ldDtVx _, _ | .ldStVx _, _ | .addI _, _ | .ldFont _, _ => none

/-- The registers an instruction writes as it executes: the column "writes" of the table of R24. `Fx0A` writes none
then: its register is written when the wait resolves (R113). -/
def writtenRegs : Instr → List Reg
  | .ldImm x _ | .addImm x _ | .rnd x _ => [x]
  | .ldReg x _ | .orReg x _ | .andReg x _ | .xorReg x _ => [x]
  | .addReg x _ | .subReg x _ | .shr x _ | .subn x _ | .shl x _ => [15, x]
  | .drw _ _ _ => [15]
  | .ldVxDt x => [x]
  | .loadRegs x => (List.finRange 16).filter fun j => j ≤ x
  | .cls | .ret | .jp _ | .call _ | .seImm _ _ | .sneImm _ _ | .seReg _ _ | .sneReg _ _ | .ldI _ | .jpV0 _ => []
  | .skp _ | .sknp _ | .ldVxKey _ | .ldDtVx _ | .ldStVx _ | .addI _ | .ldFont _ | .ldBcd _ | .storeRegs _ => []

/-- The key state a register names, false above 0xF. -/
def keyNamed (s : State) (x : Reg) : Bool := (s.key.toList[(s.reg x).toNat]?).getD false

/-- Whether an instruction that executes skips the next one (R129 to R132, R203, R204). -/
def skips : Instr → State → Bool
  | .seImm x kk, s => decide (s.reg x = kk)
  | .sneImm x kk, s => decide (s.reg x ≠ kk)
  | .seReg x y, s => decide (s.reg x = s.reg y)
  | .sneReg x y, s => decide (s.reg x ≠ s.reg y)
  | .skp x, s => keyNamed s x
  | .sknp x, s => !keyNamed s x
  | .cls, _ | .ret, _ | .jp _, _ | .call _, _ | .ldImm _ _, _ | .addImm _ _, _ | .ldReg _ _, _ | .orReg _ _, _ => false
  | .andReg _ _, _ | .xorReg _ _, _ | .addReg _ _, _ | .subReg _ _, _ | .shr _ _, _ | .subn _ _, _ | .shl _ _, _ => false
  | .ldI _, _ | .jpV0 _, _ | .rnd _ _, _ | .drw _ _ _, _ | .ldVxDt _, _ | .ldVxKey _, _ | .ldDtVx _, _ => false
  | .ldStVx _, _ | .addI _, _ | .ldFont _, _ | .ldBcd _, _ | .storeRegs _, _ | .loadRegs _, _ => false

/-- The `pc` after an instruction that executes, as the table of R106 gives it, as an exact number. -/
def pcAfter (i : Instr) (s : State) : Nat :=
  match i with
  | .ret => ((s.stack.toList[s.sp.val - 1]?).getD 0).toNat
  | .jp nnn => nnn.toNat
  | .call nnn => nnn.toNat
  | .jpV0 nnn => nnn.toNat + (s.reg 0).toNat
  | .ldVxKey _ => s.pc.toNat
  | i => s.pc.toNat + if skips i s then 4 else 2

/-- Instructions given to `Execute` one after another, without a fetch between them. -/
def execAll : List Instr → State → Outcome
  | [], s => .next s
  | i :: is, s =>
    match exec i s with
    | .next t => execAll is t
    | .fault r => .fault r
    | .refused r => .refused r

/-- Operations performed one after another. -/
def performAll : List Op → State → Outcome
  | [], s => .next s
  | op :: ops, s =>
    match perform op s with
    | .next t => performAll ops t
    | .fault r => .fault r
    | .refused r => .refused r

/-! ## What drawing does to one pixel -/

/-- Whether a sprite of `n` rows at `I`, drawn with its left column at V[x] and its top row at V[y], covers the pixel
in row `r` and column `c` with a set bit: the pixel lies `dr` rows below and `dc` columns right of the sprite's corner,
counted round the screen (R201), and bit `7 - dc` of the byte at `I + dr` is set (R202). -/
def covers (s : State) (x y : Reg) (n : Nat) (r : Fin 32) (c : Fin 64) : Bool :=
  let dr := (r.val + 32 - (s.reg y).toNat % 32) % 32
  let dc := (c.val + 64 - (s.reg x).toNat % 64) % 64
  decide (dr < n) && decide (dc < 8) && (s.mem.read (s.I.toNat + dr)).getLsbD (7 - dc)

/-! ## The invariant -/

/-- The info a fatal error can carry (R231, R238): an access of 1 to 16 bytes that leaves the memory, a key index
above 0xF, an overflow at 16, an underflow at 0. -/
def FatalError.legal : FatalError → Prop
  | .outOfBounds start len =>
    1 ≤ len ∧ len ≤ 16 ∧ start < 0x10000 ∧ (start + len > 0x1000 ∨ (len = 1 ∧ 0xF < start ∧ start ≤ 0xFF))
  | .stackOverflow sp => sp = 16
  | .stackUnderflow sp => sp = 0

/-- A fault record tells what it should of the state it stands in (R236, R238): `pc` is the faulting instruction's,
and `op` is `cur`, or none at a `pc` that cannot be fetched. -/
structure FaultRecord.Describes (f : FaultRecord) (s : State) : Prop where
  pc       : f.pc = s.pc
  legal    : f.error.legal
  ofFetch  : f.op = none → f.error = .outOfBounds s.pc.toNat 2 ∧ 0xFFF ≤ s.pc.toNat
  ofInstr  : ∀ op, f.op = some op → op = s.cur ∧ s.pc.toNat ≤ 0xFFE

/-- What holds of the core between operations: memory in its canonical form; `pc` never above 0x10FE and return
addresses never above 0x1000, so that no pc sum wraps (R29); a wait at a fetchable `pc` (R208) and never together with
a fault (R239); and a truthful fault record (R238). -/
structure State.Inv (s : State) : Prop where
  mem     : s.mem.wf
  pc      : s.pc.toNat ≤ 0x10FE
  stack   : ∀ j : Fin 16, s.stack[j].toNat ≤ 0x1000
  waiting : s.awaitingKey ≠ none → s.fault = none ∧ s.pc.toNat ≤ 0xFFE
  faulted : ∀ f, s.fault = some f → f.Describes s

/-! ## Runs -/

/-- A machine with any parameters, any program that fits, any interleaving to come and any draws, right after `Load`. -/
def State.Started (s : State) : Prop :=
  ∃ rom params schedule draws, rom.length ≤ Config.maxRom ∧
    s = load rom { State.reset with params := params, schedule := schedule, draws := draws }

/-- The states a run can be in, whatever the collaborators do (R114). -/
inductive State.Reachable : State → Prop
  | start {s : State} (h : s.Started) : State.Reachable s
  | next {s t : State} (h : State.Reachable s) (hstep : step s = .next t) : State.Reachable t

/-- A run is safe while no fatal error is recorded: the spec gives no meaning to a program past one (R236, 93 U1). -/
def State.safe (s : State) : Bool := s.fault.isNone

end Sys2Proof.Machine
end

