-- ==== Sys2Proof/Certificates/Slice0/Obligations.lean ====
section
/-! DEFINITION. The statements about the core, in the order of OBLIGATIONS.json. Each docstring names the rules it
formalises; where a clause rests on one of the spec's own decisions (92 Dn) or on a choice of the model (log n), it
says so. -/

open Sys2Proof Sys2Proof.Machine

namespace Sys2Proof.Machine

/-- The encoding of an instruction (its row of R82): it is decoded from exactly the words with these fixed digits, with
the fields of the word as its operands. -/
def Coded (mask pattern : Word) (i : Word → Instr) : Prop := ∀ op, decode op = .ok (i op) ↔ op &&& mask = pattern

/-- The shape of the five flag-writing instructions (R151): the instruction completes; the result goes to V[x] and the
flag to VF, and where x = F the result is what VF keeps; nothing else changes. -/
def WritesFlagThenResult (i : Reg → Reg → Instr) (result : State → Reg → Reg → Nat) (flag : State → Reg → Reg → Prop) :
    Prop :=
  ∀ x y s, ∃ t, exec (i x y) s = .next t ∧
    (t.reg x).toNat = result s x y ∧
    (x ≠ 15 → (flag s x y → t.reg 15 = 1) ∧ (¬ flag s x y → t.reg 15 = 0)) ∧
    t.pc = s.pc + 2 ∧ Frame s t [] [x, 15]

/-- The shape of the instructions that write one register and no flag: VF changes only where x = F. -/
def WritesResultOnly (i : Reg → Reg → Instr) (result : State → Reg → Reg → Byte) : Prop :=
  ∀ x y s, ∃ t, exec (i x y) s = .next t ∧ t.reg x = result s x y ∧ t.pc = s.pc + 2 ∧ Frame s t [] [x]

/-- The value a shift works on, by the parameter SHIFT_SRC (R9): V[x], or V[y]. -/
def shifted (s : State) (x y : Reg) : Nat := if s.params.shiftSrc = .vx then (s.reg x).toNat else (s.reg y).toNat

/-- The shape of the skips: `pc + 4` where the condition holds, else `pc + 2`, and nothing else; a `pc` that lands
above 0xFFE is out of bounds at the next fetch. -/
def SkipsWhen (i : Instr) (s : State) (cond : Prop) : Prop :=
  ∃ t, exec i s = .next t ∧ (cond → t.pc = s.pc + 4) ∧ (¬ cond → t.pc = s.pc + 2) ∧ Frame s t [] [] ∧
    (t.pc.toNat > 0xFFE → fetch t.mem t.pc = .error (.outOfBounds t.pc.toNat 2))

/-- Every word that can be fetched from the memory of `t` is big-endian (R58) and of the bytes of `s`, but for those `len`
bytes from `s.I` on that were stored, of which `stored j` is the `j`-th. -/
def FetchesTheStored (s t : State) (len : Nat) (stored : Nat → Nat) : Prop :=
  let byte := fun a : Nat =>
    if s.I.toNat ≤ a ∧ a < s.I.toNat + len then stored (a - s.I.toNat) else (s.mem.read a).toNat
  ∀ pc : Word, pc.toNat ≤ 0xFFE → ∃ op, fetch t.mem pc = .ok op ∧
    op.toNat = byte pc.toNat * 256 + byte (pc.toNat + 1)

/-- The instruction raises the error `e`: the record is set with `pc` and the opcode in `cur`, and nothing but it and
the step's result changes (R57, R236; the sticky record and its fields are the spec's decisions D20, D25, D41). -/
def RaisesInPlace (i : Instr) (s : State) (e : FatalError) : Prop :=
  exec i s = .next { s with
    fault := some { error := e, pc := s.pc, op := some s.cur }
    result := { status := .faultStatus { error := e, pc := s.pc, op := some s.cur }, redraw := false, timers := false } }

end Sys2Proof.Machine

/-! ## Encoding -/

/-- R76: the six extraction functions are the masks and shifts of the rule, on every word. -/
def Obligations.FieldsAreMaskedAndShifted : Prop :=
  ∀ op : Word,
    (fieldC op).toNat = ((op &&& 0xF000) >>> 12).toNat ∧
    (fieldX op).val = ((op &&& 0x0F00) >>> 8).toNat ∧
    (fieldY op).val = ((op &&& 0x00F0) >>> 4).toNat ∧
    fieldN op = (op &&& 0x000F).toNat ∧
    (fieldKK op).toNat = (op &&& 0x00FF).toNat ∧
    (fieldNNN op).toNat = (op &&& 0x0FFF).toNat

/-- Words of 95_test_vectors.md (V5 to V14 and the programs) decode to the instructions they stand for. -/
def Obligations.SampleWordsDecode : Prop :=
  decode 0x00E0 = .ok .cls ∧ decode 0x00EE = .ok .ret ∧ decode 0x1ABC = .ok (.jp 0xABC) ∧
  decode 0x5120 = .ok (.seReg 1 2) ∧ decode 0x8ABE = .ok (.shl 0xA 0xB) ∧ decode 0xD12F = .ok (.drw 1 2 15) ∧
  decode 0xE39E = .ok (.skp 3) ∧ decode 0xF10A = .ok (.ldVxKey 1) ∧ decode 0xFF65 = .ok (.loadRegs 15) ∧
  decode 0x6A2B = .ok (.ldImm 0xA 0x2B) ∧ decode 0xA2F0 = .ok (.ldI 0x2F0) ∧
  decode 0x0123 = .error (.unknownInstruction 0x0123) ∧ decode 0x5121 = .error (.unknownInstruction 0x5121)

/-- Every well-formed instruction is decoded from its own word, with every operand at every value. -/
def Obligations.DecodeOfEncodeIsTheInstruction : Prop :=
  ∀ i : Instr, i.wellFormed = true → decode (encode i) = .ok i

/-- Each word stands for at most one instruction: a decoded instruction is well formed and its word is the one it was
decoded from. -/
def Obligations.EncodeOfDecodeIsTheWord : Prop :=
  ∀ op i, decode op = .ok i → i.wellFormed = true ∧ encode i = op

/-- R81, R82, R83: the decoder's class is that of the row of the opcode map that matches the word, and UNKNOWN where
none does; no word matches two rows. That only exact patterns match is the spec's decision D12. -/
def Obligations.DecoderFollowsTheOpcodeMap : Prop :=
  ∀ op, (∀ r ∈ opcodeMap, r.hits op = true → (decodeFields op).cls = r.cls) ∧
    ((∀ r ∈ opcodeMap, r.hits op = false) → (decodeFields op).cls = .unknown) ∧
    (∀ r ∈ opcodeMap, ∀ q ∈ opcodeMap, r.hits op = true → q.hits op = true → r = q)

/-- R84, R85, R86 (the spec's decision D12): the unknown words, class by class. -/
def Obligations.UnknownWordsAreTheOnesLeftOut : Prop :=
  ∀ op : Word, decode op = .error (.unknownInstruction op) ↔
    (fieldC op = 0x0 ∧ op ≠ 0x00E0 ∧ op ≠ 0x00EE) ∨
    ((fieldC op = 0x5 ∨ fieldC op = 0x9) ∧ fieldN op ≠ 0) ∨
    (fieldC op = 0x8 ∧ fieldN op ∈ [0x8, 0x9, 0xA, 0xB, 0xC, 0xD, 0xF]) ∨
    (fieldC op = 0xE ∧ fieldKK op ∉ ([0x9E, 0xA1] : List Byte)) ∨
    (fieldC op = 0xF ∧ fieldKK op ∉ ([0x07, 0x0A, 0x15, 0x18, 0x1E, 0x29, 0x33, 0x55, 0x65] : List Byte))

/-! ## The step -/

/-- R100, R104, R105: where `Step` is the next operation (the schedule is the model's field, log 1), with no fault and no
wait, a step whose two bytes at `pc` decode to `i` writes the word to `cur` and executes `i`. `cur` at fetch is the
spec's decision D38 (log 14). -/
def Obligations.StepRunsTheDecodedInstruction : Prop :=
  ∀ s rest i, s.schedule.take = (.step, rest) → s.fault = none → s.awaitingKey = none → s.pc.toNat ≤ 0xFFE →
    decodeBytes [s.mem.read s.pc.toNat, s.mem.read (s.pc.toNat + 1)] = .ok (i, []) →
    step s = exec i { s with
      schedule := rest, cur := joinBytes (s.mem.read s.pc.toNat) (s.mem.read (s.pc.toNat + 1)) }

/-- R107, R234 (the spec's decision D40), R100, R104 (`cur` at fetch: the spec's decision D38, log 14): where `Step` is
the next operation (log 1), a step that fetches an unknown word writes it to `cur`, skips it, says so in its result
(held as log 2 says) and changes nothing else. -/
def Obligations.StepSkipsAnUnknownWord : Prop :=
  ∀ s rest op, s.schedule.take = (.step, rest) → s.fault = none → s.awaitingKey = none →
    fetch s.mem s.pc = .ok op → decode op = .error (.unknownInstruction op) →
    step s = .next { s with
      schedule := rest, cur := op, pc := s.pc + 2, result := { status := .unknown op, redraw := false, timers := false } }

/-- R56 (the bound is the spec's decision D10): a fetch reads the high byte at `pc` and the low byte after it, and it
fails exactly from 0xFFF on. -/
def Obligations.FetchIsBigEndianAndBounded : Prop :=
  ∀ (m : Memory) (pc : Word),
    (pc.toNat ≤ 0xFFE → ∃ op, fetch m pc = .ok op ∧
      op.toNat = (m.read pc.toNat).toNat * 256 + (m.read (pc.toNat + 1)).toNat) ∧
    (0xFFF ≤ pc.toNat → fetch m pc = .error (.outOfBounds pc.toNat 2))

/-- R104, R231, R236 (the spec's decisions D10, D25, D38, D41): where `Step` is the next operation (log 1), a step at a `pc` that cannot be fetched records OutOfBounds
with the access and no opcode, and changes nothing else; `cur` keeps its value. -/
def Obligations.StepFaultsWhereNothingCanBeFetched : Prop :=
  ∀ s rest, s.schedule.take = (.step, rest) → s.fault = none → s.awaitingKey = none → 0xFFF ≤ s.pc.toNat →
    step s = .next { s with
      schedule := rest
      fault := some { error := .outOfBounds s.pc.toNat 2, pc := s.pc, op := none }
      result := { status := .faultStatus { error := .outOfBounds s.pc.toNat 2, pc := s.pc, op := none },
                  redraw := false, timers := false } }

/-- R101, R102 (the spec's decisions D25, D30): while a fault is recorded, `Step` returns it and changes no state;
while a wait is pending, it returns Waiting and changes no state, wherever `pc` is. The result is the model's own field
(log 2). -/
def Obligations.StepIsInertAfterAFaultAndWhileWaiting : Prop :=
  ∀ s : State,
    (∀ f, s.fault = some f →
      coreStep s = .next { s with result := { status := .faultStatus f, redraw := false, timers := false } }) ∧
    (∀ r, s.fault = none → s.awaitingKey = some r →
      coreStep s = .next { s with result := { status := .waiting, redraw := false, timers := false } })

/-- R7, R114 and log 1 (the model's choice of holding the collaborators' choices in State): a step performs the operation
that the schedule gives and keeps what comes after it. A schedule gives the operations written out, in their order, and
then either a list over and over (`Step` for ever, where the list is empty) or the free operations, one after another.
So any finite sequence of operations can come next, any list can come for ever, and what the free operations are is
open. -/
def Obligations.StepPerformsTheNextOperation : Prop :=
  (∀ s op rest, s.schedule.take = (op, rest) → step s = perform op { s with schedule := rest }) ∧
  (∀ op ops later, Schedule.take { soon := op :: ops, later := later } = (op, { soon := ops, later := later })) ∧
  (∀ op ops, Schedule.take { soon := [], later := .repeating (op :: ops) } =
    (op, { soon := ops, later := .repeating (op :: ops) })) ∧
  Schedule.take { soon := [], later := .repeating [] } = (.step, { soon := [], later := .repeating [] }) ∧
  (∀ k, Schedule.take { soon := [], later := .free k } =
    (Config.laterOp k, { soon := [], later := .free (k + 1) })) ∧
  ∀ s, perform .step s = coreStep s ∧ perform .tickTimers s = .next (tickTimers s) ∧
    (∀ k pressed, perform (.setKey k pressed) s = .next (setKey k pressed s)) ∧
    (∀ rom, perform (.load rom) s = .next (load rom s))

/-- Log 7 (how the model reads R236): every step from every state has a next state, with the same parameters (for a
`Load`, that it leaves them is log 15, DEDUCED). -/
def Obligations.EveryStepHasANextState : Prop :=
  ∀ s, ∃ t, step s = .next t ∧ t.params = s.params

/-! ## All instructions -/

/-- R106, R231 to R233, R239: an instruction that meets no error completes, whatever its operands: status Ok, no
fault, and `pc` as the table of R106 gives it (exact, without wrap, at a `pc` that can be fetched). -/
def Obligations.InstructionsCompleteWhereNoErrorApplies : Prop :=
  ∀ i s, faultOf i s = none → s.pc.toNat ≤ 0xFFE →
    ∃ t, exec i s = .next t ∧ t.fault = s.fault ∧ t.result.status = .ok ∧ t.pc.toNat = pcAfter i s

/-- R57, R236, R241 (the spec's decisions D20, D25): an instruction that meets an error raises it, and nothing but the
record and the step's result changes. -/
def Obligations.FaultingInstructionsChangeNothing : Prop :=
  ∀ i s e, faultOf i s = some e → RaisesInPlace i s e

/-- R109, R110 (the spec's decision D27): a completed instruction hints redraw exactly for `00E0` and `Dxyn`, and
timers exactly for `Fx07`, `Fx15` and `Fx18`. -/
def Obligations.HintsNameDisplayAndTimerInstructions : Prop :=
  ∀ i s, faultOf i s = none → ∃ t, exec i s = .next t ∧
    (t.result.redraw = true ↔ i = .cls ∨ ∃ x y n, i = .drw x y n) ∧
    (t.result.timers = true ↔ ∃ x, i = .ldVxDt x ∨ i = .ldDtVx x ∨ i = .ldStVx x)

/-- R24, R26, R30, R37, R39, R40, R41, R60, R106, R230: which instructions write each piece of state as they execute. A
general register only those that the table of R24 lists with it; memory only `Fx33` and `Fx55`; the stack only `2nnn`;
`sp` only `2nnn` and `00EE`; the framebuffer only `00E0` and `Dxyn`; I only `Annn`, `Fx1E` and `Fx29`; the delay timer
only `Fx15`, the sound timer only `Fx18`; the wait only `Fx0A`, which leaves `pc`; the fault record only the
instructions of R230; the draws (the model's counter, log 3) only `Cxkk`; the keypad, `cur`, the parameters and the
schedule (log 1) none. -/
def Obligations.EachPieceOfStateHasItsWriters : Prop :=
  ∀ i s t, exec i s = .next t →
    (∀ r, t.reg r ≠ s.reg r → r ∈ writtenRegs i) ∧
    (t.mem ≠ s.mem → ∃ x, i = .ldBcd x ∨ i = .storeRegs x) ∧
    (t.stack ≠ s.stack → ∃ nnn, i = .call nnn) ∧
    (t.sp ≠ s.sp → (∃ nnn, i = .call nnn) ∨ i = .ret) ∧
    (t.fb ≠ s.fb → i = .cls ∨ ∃ x y n, i = .drw x y n) ∧
    (t.I ≠ s.I → (∃ nnn, i = .ldI nnn) ∨ ∃ x, i = .addI x ∨ i = .ldFont x) ∧
    (t.DT ≠ s.DT → ∃ x, i = .ldDtVx x) ∧
    (t.ST ≠ s.ST → ∃ x, i = .ldStVx x) ∧
    (t.awaitingKey ≠ s.awaitingKey → ∃ x, i = .ldVxKey x) ∧
    ((∃ x, i = .ldVxKey x) → t.pc = s.pc) ∧
    (t.fault ≠ s.fault → i = .ret ∨ (∃ nnn, i = .call nnn) ∨ (∃ x y n, i = .drw x y n) ∨
      ∃ x, i = .ldBcd x ∨ i = .storeRegs x ∨ i = .loadRegs x ∨ i = .skp x ∨ i = .sknp x) ∧
    (t.draws ≠ s.draws → ∃ x kk, i = .rnd x kk) ∧
    t.key = s.key ∧ t.cur = s.cur ∧ t.params = s.params ∧ t.schedule = s.schedule

/-- R33: VF changes only as the flag of `8xy4` to `8xyE` and `Dxyn`, or as the ordinary destination VF of another
instruction. In particular `7xkk` and the logic operations leave it (for the latter the spec's decision D15). -/
def Obligations.VfIsWrittenAsFlagOrDestinationOnly : Prop :=
  ∀ i s t, exec i s = .next t → t.reg 15 ≠ s.reg 15 →
    (∃ x y, i = .addReg x y ∨ i = .subReg x y ∨ i = .shr x y ∨ i = .subn x y ∨ i = .shl x y) ∨
    (∃ x y n, i = .drw x y n) ∨
    (∃ kk, i = .ldImm 15 kk ∨ i = .addImm 15 kk ∨ i = .rnd 15 kk) ∨
    (∃ y, i = .ldReg 15 y ∨ i = .orReg 15 y ∨ i = .andReg 15 y ∨ i = .xorReg 15 y) ∨
    i = .ldVxDt 15 ∨ i = .loadRegs 15

/-- R36, R42: no instruction reads ST or `cur`. An instruction that meets no error does the same with any other values
in them, and carries those values along (`Fx18` overwrites ST). -/
def Obligations.NoInstructionReadsCurOrTheSoundTimer : Prop :=
  ∀ i s t w v, faultOf i s = none → exec i s = .next t →
    exec i { s with cur := w } = .next { t with cur := w } ∧
    ((¬ ∃ x, i = .ldStVx x) → exec i { s with ST := v } = .next { t with ST := v }) ∧
    ((∃ x, i = .ldStVx x) → exec i { s with ST := v } = .next t)

/-! ## Control flow -/

/-- R126: `1nnn` sets `pc` to nnn and changes nothing else; from 0xFFF the next fetch is out of bounds. -/
def Obligations.JumpSetsPcToItsTarget : Prop :=
  Coded 0xF000 0x1000 (fun op => .jp (fieldNNN op)) ∧
  ∀ nnn s, ∃ t, exec (.jp nnn) s = .next t ∧ t.pc.toNat = nnn.toNat ∧ Frame s t [] [] ∧
    (nnn = 0xFFF → fetch t.mem t.pc = .error (.outOfBounds 0xFFF 2))

/-- R127: a call pushes `pc + 2` and jumps; with 16 entries in use it raises StackOverflow (a record as the
spec's decisions D25 and D41 say) and nothing else changes. -/
def Obligations.CallPushesTheReturnAddress : Prop :=
  ∀ nnn s,
    (∀ h : s.sp.val < 16, ∃ t, exec (.call nnn) s = .next t ∧
      t.stack[s.sp.val] = s.pc + 2 ∧ (∀ j : Fin 16, j.val ≠ s.sp.val → t.stack[j] = s.stack[j]) ∧
      t.sp.val = s.sp.val + 1 ∧ t.pc.toNat = nnn.toNat ∧ Frame s t [.stack, .sp] []) ∧
    (s.sp.val = 16 → RaisesInPlace (.call nnn) s (.stackOverflow 16))

/-- R125: a return pops the top entry into `pc`, without adding 2 and without clearing the entry (the spec's decision D36);
a popped value above 0xFFE faults at the next fetch; on an empty stack it raises StackUnderflow (a record as the spec's
decisions D25 and D41 say) and nothing else changes. -/
def Obligations.ReturnPopsTheReturnAddress : Prop :=
  ∀ s : State,
    (∀ _h : 0 < s.sp.val, ∃ t, exec .ret s = .next t ∧
      t.pc = s.stack[s.sp.val - 1] ∧ t.sp.val = s.sp.val - 1 ∧ Frame s t [.sp] [] ∧
      (t.pc.toNat > 0xFFE → fetch t.mem t.pc = .error (.outOfBounds t.pc.toNat 2))) ∧
    (s.sp.val = 0 → RaisesInPlace .ret s (.stackUnderflow 0))

/-- R128: `Bnnn` jumps to `nnn + V[0]`, unmasked and without wrap; a target above 0xFFE faults at the next fetch. -/
def Obligations.JumpWithOffsetAddsV0 : Prop :=
  Coded 0xF000 0xB000 (fun op => .jpV0 (fieldNNN op)) ∧
  ∀ nnn s, ∃ t, exec (.jpV0 nnn) s = .next t ∧ t.pc.toNat = nnn.toNat + (s.reg 0).toNat ∧ t.pc.toNat ≤ 0x10FE ∧
    Frame s t [] [] ∧ (t.pc.toNat > 0xFFE → fetch t.mem t.pc = .error (.outOfBounds t.pc.toNat 2))

/-- R129, R130: the immediate skips, with their encodings. -/
def Obligations.ImmediateSkipsCompareWithTheByte : Prop :=
  Coded 0xF000 0x3000 (fun op => .seImm (fieldX op) (fieldKK op)) ∧
  Coded 0xF000 0x4000 (fun op => .sneImm (fieldX op) (fieldKK op)) ∧
  ∀ x kk s, SkipsWhen (.seImm x kk) s (s.reg x = kk) ∧ SkipsWhen (.sneImm x kk) s (s.reg x ≠ kk)

/-- R131, R132: the register skips, with their encodings. -/
def Obligations.RegisterSkipsCompareTheRegisters : Prop :=
  Coded 0xF00F 0x5000 (fun op => .seReg (fieldX op) (fieldY op)) ∧
  Coded 0xF00F 0x9000 (fun op => .sneReg (fieldX op) (fieldY op)) ∧
  ∀ x y s, SkipsWhen (.seReg x y) s (s.reg x = s.reg y) ∧ SkipsWhen (.sneReg x y) s (s.reg x ≠ s.reg y)

/-- R232: sixteen calls from an empty stack succeed, to whatever targets, and the next one raises StackOverflow (a
record as the spec's decisions D25 and D41 say). -/
def Obligations.SeventeenthNestedCallOverflows : Prop :=
  ∀ (targets : List Addr) (last : Addr) (s : State), targets.length = 16 → s.sp.val = 0 →
    ∃ t, execAll (targets.map .call) s = .next t ∧ t.sp.val = 16 ∧ t.fault = s.fault ∧
      RaisesInPlace (.call last) t (.stackOverflow 16)

/-- The round trip of the source's worked example (95 W5), at any depth and with any work in between: a return whose
stack and `sp` are those the call left goes to the instruction after the call, with `sp` as before it. -/
def Obligations.ReturnUndoesTheCall : Prop :=
  ∀ nnn s, s.sp.val < 16 → ∃ t, exec (.call nnn) s = .next t ∧
    ∀ u : State, u.stack = t.stack → u.sp = t.sp →
      ∃ v, exec .ret u = .next v ∧ v.pc = s.pc + 2 ∧ v.sp = s.sp

/-! ## Arithmetic and logic -/

/-- R152: LD Vx, kk. -/
def Obligations.LoadImmediateSetsTheRegister : Prop :=
  Coded 0xF000 0x6000 (fun op => .ldImm (fieldX op) (fieldKK op)) ∧
  ∀ x kk s, ∃ t, exec (.ldImm x kk) s = .next t ∧ t.reg x = kk ∧ t.pc = s.pc + 2 ∧ Frame s t [] [x]

/-- R153: ADD Vx, kk wraps modulo 256 and writes no flag: VF changes only where x = F. -/
def Obligations.AddImmediateWrapsWithoutAFlag : Prop :=
  Coded 0xF000 0x7000 (fun op => .addImm (fieldX op) (fieldKK op)) ∧
  ∀ x kk s, ∃ t, exec (.addImm x kk) s = .next t ∧ (t.reg x).toNat = ((s.reg x).toNat + kk.toNat) % 256 ∧
    t.pc = s.pc + 2 ∧ Frame s t [] [x]

/-- R154: LD Vx, Vy. -/
def Obligations.CopyWritesTheSourceRegister : Prop :=
  Coded 0xF00F 0x8000 (fun op => .ldReg (fieldX op) (fieldY op)) ∧
  WritesResultOnly .ldReg fun s _ y => s.reg y

/-- R155, R156, R157: OR, AND and XOR; that VF is unchanged unless x = F is the spec's decision D15. -/
def Obligations.LogicWritesNoFlag : Prop :=
  WritesResultOnly .orReg (fun s x y => s.reg x ||| s.reg y) ∧
  WritesResultOnly .andReg (fun s x y => s.reg x &&& s.reg y) ∧
  WritesResultOnly .xorReg (fun s x y => s.reg x ^^^ s.reg y)

/-- R158: ADD Vx, Vy with carry, for every x and y, x = F and y = F included. -/
def Obligations.AddWritesCarryThenSum : Prop :=
  Coded 0xF00F 0x8004 (fun op => .addReg (fieldX op) (fieldY op)) ∧
  WritesFlagThenResult .addReg (fun s x y => ((s.reg x).toNat + (s.reg y).toNat) % 256)
    (fun s x y => (s.reg x).toNat + (s.reg y).toNat > 0xFF)

/-- R159, R161: SUB and SUBN with VF = NOT borrow; that equal operands do not borrow is the spec's decision D16. -/
def Obligations.SubtractWritesNotBorrowThenDifference : Prop :=
  WritesFlagThenResult .subReg (fun s x y => ((s.reg x).toNat + 256 - (s.reg y).toNat) % 256)
    (fun s x y => (s.reg x).toNat ≥ (s.reg y).toNat) ∧
  WritesFlagThenResult .subn (fun s x y => ((s.reg y).toNat + 256 - (s.reg x).toNat) % 256)
    (fun s x y => (s.reg y).toNat ≥ (s.reg x).toNat)

/-- R160, R162: SHR and SHL, for both values of the parameter SHIFT_SRC (the spec's decision D14, log 4). -/
def Obligations.ShiftsWriteTheBitShiftedOut : Prop :=
  WritesFlagThenResult .shr (fun s x y => shifted s x y / 2) (fun s x y => shifted s x y % 2 = 1) ∧
  WritesFlagThenResult .shl (fun s x y => shifted s x y * 2 % 256) (fun s x y => shifted s x y ≥ 128)

/-- R163, R249 (the spec's decision D29): RND stores a drawn byte under the mask. The byte is a free value (log 3): the
claim holds whatever it is, and every execution takes a draw of its own. -/
def Obligations.RandomByteIsMasked : Prop :=
  ∀ x kk s, ∃ t, exec (.rnd x kk) s = .next t ∧ t.reg x = Config.randomByte s.draws &&& kk ∧
    t.reg x &&& ~~~kk = 0 ∧ t.draws = s.draws + 1 ∧ t.pc = s.pc + 2 ∧ Frame s t [.draws] [x]

/-! ## Index and memory -/

/-- R180: LD I, nnn. -/
def Obligations.LoadIndexSetsTheAddress : Prop :=
  Coded 0xF000 0xA000 (fun op => .ldI (fieldNNN op)) ∧
  ∀ nnn s, ∃ t, exec (.ldI nnn) s = .next t ∧ t.I.toNat = nnn.toNat ∧ t.pc = s.pc + 2 ∧ Frame s t [.I] []

/-- R181, R182: ADD I, Vx wraps at 16 bits without a flag (the spec's decision D17), and LD F, Vx gives 5 * V[x], not
masked (D18). -/
def Obligations.IndexArithmeticIsUnmasked : Prop :=
  (∀ x s, ∃ t, exec (.addI x) s = .next t ∧ t.I.toNat = (s.I.toNat + (s.reg x).toNat) % 65536 ∧
    t.pc = s.pc + 2 ∧ Frame s t [.I] []) ∧
  (∀ x s, ∃ t, exec (.ldFont x) s = .next t ∧ t.I.toNat = 5 * (s.reg x).toNat ∧
    t.pc = s.pc + 2 ∧ Frame s t [.I] [])

/-- R183: LD B, Vx stores the three decimal digits, most significant first, at I..I+2 and nothing else; where I + 2 is
outside the memory it raises OutOfBounds(I, 3) and stores nothing (the spec's
decisions D20, D25, D41). Memory is in its canonical form, as every reachable
state's is. -/
def Obligations.BcdStoresThreeDigits : Prop :=
  ∀ x (s : State), s.mem.wf →
    (s.I.toNat + 2 ≤ 0xFFF → ∃ t, exec (.ldBcd x) s = .next t ∧
      (t.mem.read s.I.toNat).toNat = (s.reg x).toNat / 100 ∧
      (t.mem.read (s.I.toNat + 1)).toNat = (s.reg x).toNat / 10 % 10 ∧
      (t.mem.read (s.I.toNat + 2)).toNat = (s.reg x).toNat % 10 ∧
      (∀ a, a < s.I.toNat ∨ s.I.toNat + 2 < a → t.mem.read a = s.mem.read a) ∧
      t.pc = s.pc + 2 ∧ Frame s t [.mem] []) ∧
    (s.I.toNat + 2 > 0xFFF → RaisesInPlace (.ldBcd x) s (.outOfBounds s.I.toNat 3))

/-- R184: LD [I], Vx stores V0..Vx at I..I+x and nothing else; where I + x is outside the memory it raises
OutOfBounds(I, x + 1) and stores nothing (the spec's
decisions D20, D25, D41). -/
def Obligations.StoreRegistersCopiesTheBlock : Prop :=
  ∀ (x : Reg) (s : State), s.mem.wf →
    (s.I.toNat + x.val ≤ 0xFFF → ∃ t, exec (.storeRegs x) s = .next t ∧
      (∀ j : Reg, j ≤ x → t.mem.read (s.I.toNat + j.val) = s.reg j) ∧
      (∀ a, a < s.I.toNat ∨ s.I.toNat + x.val < a → t.mem.read a = s.mem.read a) ∧
      t.pc = s.pc + 2 ∧ Frame s t [.mem] []) ∧
    (s.I.toNat + x.val > 0xFFF → RaisesInPlace (.storeRegs x) s (.outOfBounds s.I.toNat (x.val + 1)))

/-- R185: LD Vx, [I] loads V0..Vx from I..I+x and leaves the registers above x; where I + x is outside the memory it
raises OutOfBounds(I, x + 1) and loads nothing (the spec's
decisions D20, D25, D41). -/
def Obligations.LoadRegistersCopiesTheBlock : Prop :=
  ∀ (x : Reg) (s : State),
    (s.I.toNat + x.val ≤ 0xFFF → ∃ t, exec (.loadRegs x) s = .next t ∧
      (∀ j : Reg, j ≤ x → t.reg j = s.mem.read (s.I.toNat + j.val)) ∧
      (∀ j : Reg, x < j → t.reg j = s.reg j) ∧
      t.pc = s.pc + 2 ∧ Frame s t [] (List.finRange 16)) ∧
    (s.I.toNat + x.val > 0xFFF → RaisesInPlace (.loadRegs x) s (.outOfBounds s.I.toNat (x.val + 1)))

/-- R184, R185 together: a block stored by `Fx55` is loaded back by `Fx65`, whatever happened to the registers in
between, as long as the memory and I are what the store left. -/
def Obligations.LoadUndoesStore : Prop :=
  ∀ (x : Reg) (s : State), s.mem.wf → s.I.toNat + x.val ≤ 0xFFF → ∃ t, exec (.storeRegs x) s = .next t ∧
    ∀ u : State, u.mem = t.mem → u.I = t.I →
      ∃ v, exec (.loadRegs x) u = .next v ∧ ∀ j : Reg, j ≤ x → v.reg j = s.reg j

/-- R69 (the spec's decision D33), R58: after each of the two storing instructions, `Fx33` and `Fx55`, every fetch sees the
stored bytes: at every `pc` that can be fetched, inside the stored block, outside it or across an edge of it, each of
the word's two bytes is the stored one where its address lies in the block and the old one elsewhere. -/
def Obligations.NextFetchSeesTheStore : Prop :=
  ∀ (x : Reg) (s : State), s.mem.wf →
    (s.I.toNat + 2 ≤ 0xFFF → ∃ t, exec (.ldBcd x) s = .next t ∧
      FetchesTheStored s t 3 fun j =>
        if j = 0 then (s.reg x).toNat / 100 else if j = 1 then (s.reg x).toNat / 10 % 10 else (s.reg x).toNat % 10) ∧
    (s.I.toNat + x.val ≤ 0xFFF → ∃ t, exec (.storeRegs x) s = .next t ∧
      FetchesTheStored s t (x.val + 1) fun j => (s.reg (Fin.ofNat 16 j)).toNat)

/-- Two canonical memories that read the same at every address are the same data. -/
def Obligations.CanonicalMemoriesAreDeterminedByTheirBytes : Prop :=
  ∀ m n : Memory, m.wf → n.wf → (∀ a, m.read a = n.read a) → m = n

/-! ## Display -/

/-- R200: CLS clears all 2048 pixels, hints redraw and changes nothing else. -/
def Obligations.ClearZeroesEveryPixel : Prop :=
  Coded 0xFFFF 0x00E0 (fun _ => .cls) ∧
  ∀ s, ∃ t, exec .cls s = .next t ∧ (∀ (r : Fin 32) (c : Fin 64), t.fb[r][c] = false) ∧ t.result.redraw = true ∧
    t.pc = s.pc + 2 ∧ Frame s t [.fb] []

/-- R201, R202 (the spec's decisions D21, D22, D23): DRW flips exactly the pixels the sprite covers with a set bit,
round both edges of the screen, and VF tells whether one of them was set. The loop of R201 is thereby what it should
be at every pixel, for every n up to 15, n = 0 included. -/
def Obligations.DrawFlipsTheCoveredPixels : Prop :=
  ∀ x y n s, n ≤ 15 → (n = 0 ∨ s.I.toNat + n - 1 ≤ 0xFFF) → ∃ t, exec (.drw x y n) s = .next t ∧
    (∀ (r : Fin 32) (c : Fin 64), t.fb[r][c] = (s.fb[r][c] ^^ covers s x y n r c)) ∧
    ((∃ (r : Fin 32) (c : Fin 64), s.fb[r][c] = true ∧ covers s x y n r c = true) → t.reg 15 = 1) ∧
    ((¬ ∃ (r : Fin 32) (c : Fin 64), s.fb[r][c] = true ∧ covers s x y n r c = true) → t.reg 15 = 0) ∧
    t.result.redraw = true ∧ t.pc = s.pc + 2 ∧ Frame s t [.fb] [15]

/-- R201 (95 W7): a second draw of the same sprite at the same place restores the framebuffer, and its VF is 1 exactly
where the sprite covers a pixel that was 0 before the first draw, as every pixel of a clear screen is. That VF clause
follows R201's pseudocode, where R201's corner case and W7 say 1 for every sprite with a set bit: which of the two the
model follows is log 16 (DEDUCED). The second draw may start from any state that has the first one's framebuffer and the same memory, index and coordinates. -/
def Obligations.DrawingTwiceRestoresTheScreen : Prop :=
  ∀ x y n (s : State), n ≤ 15 → (n = 0 ∨ s.I.toNat + n - 1 ≤ 0xFFF) → ∃ t, exec (.drw x y n) s = .next t ∧
    ∀ u : State, u.fb = t.fb → u.mem = s.mem → u.I = s.I → u.reg x = s.reg x → u.reg y = s.reg y →
      ∃ v, exec (.drw x y n) u = .next v ∧ v.fb = s.fb ∧
        (v.reg 15 = 1 ↔ ∃ (r : Fin 32) (c : Fin 64), s.fb[r][c] = false ∧ covers s x y n r c = true)

/-! ## Keypad and timers -/

/-- R203, R204, R64: the keypad skips follow the key V[x] names; a value above 0xF raises OutOfBounds(V[x], 1) (the
spec's decision D19). -/
def Obligations.KeySkipsFollowTheKeypad : Prop :=
  ∀ x (s : State),
    (∀ h : (s.reg x).toNat ≤ 0xF,
      SkipsWhen (.skp x) s (s.key[(s.reg x).toNat]'(by omega) = true) ∧
      SkipsWhen (.sknp x) s (s.key[(s.reg x).toNat]'(by omega) = false)) ∧
    ((s.reg x).toNat > 0xF →
      RaisesInPlace (.skp x) s (.outOfBounds (s.reg x).toNat 1) ∧
      RaisesInPlace (.sknp x) s (.outOfBounds (s.reg x).toNat 1))

/-- R205, R206, R207: the timer transfers with their encodings, each with the timers hint; the tone sounds exactly
where `Fx18` wrote a value above 0. -/
def Obligations.TimerTransfersCopyTheByte : Prop :=
  Coded 0xF0FF 0xF007 (fun op => .ldVxDt (fieldX op)) ∧
  Coded 0xF0FF 0xF015 (fun op => .ldDtVx (fieldX op)) ∧
  Coded 0xF0FF 0xF018 (fun op => .ldStVx (fieldX op)) ∧
  (∀ x s, ∃ t, exec (.ldVxDt x) s = .next t ∧ t.reg x = s.DT ∧ t.result.timers = true ∧ t.pc = s.pc + 2 ∧
    Frame s t [] [x]) ∧
  (∀ x s, ∃ t, exec (.ldDtVx x) s = .next t ∧ t.DT = s.reg x ∧ t.result.timers = true ∧ t.pc = s.pc + 2 ∧
    Frame s t [.DT] []) ∧
  (∀ x s, ∃ t, exec (.ldStVx x) s = .next t ∧ t.ST = s.reg x ∧ (t.tone = true ↔ s.reg x ≠ 0) ∧
    t.result.timers = true ∧ t.pc = s.pc + 2 ∧ Frame s t [.ST] [])

/-- R111 (that it acts in every state is the spec's decision D31): a tick lowers each timer by one, never below zero,
and changes nothing else at all. -/
def Obligations.TickLowersTheTimers : Prop :=
  ∀ s, (tickTimers s).DT.toNat = s.DT.toNat - 1 ∧ (tickTimers s).ST.toNat = s.ST.toNat - 1 ∧
    { tickTimers s with DT := s.DT, ST := s.ST } = s

/-- R208 (the spec's decision D24): LD Vx, K starts the wait and leaves `pc` where it is, whatever keys are held. -/
def Obligations.WaitForKeyKeepsThePc : Prop :=
  ∀ x s, ∃ t, exec (.ldVxKey x) s = .next t ∧ t.awaitingKey = some x ∧ t.pc = s.pc ∧ Frame s t [.awaitingKey] []

/-- R112, R113 (the spec's decisions D24, D31): a press during a wait stores the key's index in the waiting register,
ends the wait and moves `pc` past the instruction; any other SetKey changes the one key state and nothing else at
all. -/
def Obligations.SetKeyResolvesAWait : Prop :=
  ∀ (k : Key) (s : State),
    (∀ r, s.awaitingKey = some r →
      ((setKey k true s).reg r).toNat = k.val ∧ (setKey k true s).awaitingKey = none ∧
      (setKey k true s).pc = s.pc + 2 ∧ (setKey k true s).key = s.key.set k true ∧
      (setKey k true s).result = s.result ∧ Frame s (setKey k true s) [.key, .awaitingKey] [r]) ∧
    (s.awaitingKey = none → setKey k true s = { s with key := s.key.set k true }) ∧
    setKey k false s = { s with key := s.key.set k false }

/-- R208, R248 (the spec's decision D24): however many steps, ticks and releases come, a wait stays pending and keeps
`pc`, the registers, the memory, the stack and the framebuffer; only the keypad and the timers move. -/
def Obligations.WaitLastsUntilAPress : Prop :=
  ∀ (ops : List Op) (s : State) (r : Reg), s.fault = none → s.awaitingKey = some r →
    (∀ op ∈ ops, op = .step ∨ op = .tickTimers ∨ ∃ k, op = .setKey k false) →
    ∃ t, performAll ops s = .next t ∧ t.awaitingKey = some r ∧ t.pc = s.pc ∧ Frame s t [.key, .DT, .ST] []

/-! ## Errors -/

/-- R236, R242 (the spec's decisions D25, D31): whatever operations but `Load` follow a fatal error, the record stays
and with it `pc`, the registers, the memory, the stack and the framebuffer. No wait is pending beside a fault, as in
every reachable state. -/
def Obligations.FaultLastsUntilALoad : Prop :=
  ∀ (ops : List Op) (s : State) (f : FaultRecord), s.fault = some f → s.awaitingKey = none →
    (∀ op ∈ ops, ∀ rom, op ≠ .load rom) →
    ∃ t, performAll ops s = .next t ∧ t.fault = some f ∧ t.pc = s.pc ∧ Frame s t [.key, .DT, .ST] []

/-! ## Load -/

/-- R260, R261, R44 (the values of V, I, sp, the stack, the timers, the keypad, the hidden state and the memory after
the program are the spec's decisions D3 to D9, log 6; that the parameters stay is log 15, DEDUCED): after `Load` of a program that fits, every element of the state
has its reset value, whatever it was before, with the font the machine's parameter gives. -/
def Obligations.LoadRebuildsTheState : Prop :=
  ∀ (rom : List Byte) (s : State), rom.length ≤ 3584 →
    (∀ a, (load rom s).mem.read a =
      if a < 80 then fontByte s.params.font a
      else if 0x200 ≤ a ∧ a < 0x200 + rom.length then rom.getD (a - 0x200) 0 else 0) ∧
    (∀ x, (load rom s).reg x = 0) ∧ (load rom s).I = 0 ∧ (load rom s).pc = 0x200 ∧
    (∀ j : Fin 16, (load rom s).stack[j] = 0) ∧ (load rom s).sp = 0 ∧ (load rom s).DT = 0 ∧ (load rom s).ST = 0 ∧
    (∀ (r : Fin 32) (c : Fin 64), (load rom s).fb[r][c] = false) ∧ (∀ k : Key, (load rom s).key[k] = false) ∧
    (load rom s).awaitingKey = none ∧ (load rom s).cur = 0 ∧ (load rom s).fault = none ∧
    (load rom s).result.status = .ok ∧ (load rom s).params = s.params

/-- R263: the program is copied verbatim from 0x200 on, so that the first word fetched is its first two bytes, the
first one high. -/
def Obligations.LoadCopiesTheProgramVerbatim : Prop :=
  ∀ (rom : List Byte) (s : State), rom.length ≤ 3584 →
    (∀ (j : Nat) (h : j < rom.length), (load rom s).mem.read (0x200 + j) = rom[j]) ∧
    (∀ h : 2 ≤ rom.length, ∃ op, fetch (load rom s).mem (load rom s).pc = .ok op ∧
      op = (zext16 rom[0] <<< 8) ||| zext16 rom[1])

/-- R262, R235 (that the state is left alone is the spec's decision D42): a program over 3584 bytes is turned away,
and nothing changes but the operation's result (log 2). -/
def Obligations.LoadRejectsTooLargePrograms : Prop :=
  ∀ (rom : List Byte) (s : State), rom.length > 3584 →
    load rom s = { s with result := { status := .romTooLarge rom.length, redraw := false, timers := false } }

/-- The state after reset is the one `Load` builds from no program at all, which lists nothing in memory. -/
def Obligations.ResetIsTheLoadOfAnEmptyProgram : Prop :=
  load [] State.reset = State.reset ∧ State.reset.mem = []

/-! ## Invariants -/

/-- Every machine is in the invariant right after `Load`, the reset state among them. It rests on the reset values of the
stack entries, the wait and the fault, which are the spec's decisions D5 and D9 (log 6). -/
def Obligations.InvariantHoldsAtTheStart : Prop :=
  State.reset.Inv ∧ ∀ s : State, s.Started → s.Inv

/-- Every step from every state in the invariant, whatever operation it performs, ends in the invariant (R29, R32,
R208, R236, R238, R239, and the canonical form of memory). -/
def Obligations.EveryStepKeepsTheInvariant : Prop :=
  ∀ s : State, s.Inv → ∃ t, step s = .next t ∧ t.Inv

/-- R29, R239, R240 (which the spec derives): whatever the collaborators do, `pc` never passes 0x10FE, so that no sum
of it wraps, and a fault and a wait are never both there. -/
def Obligations.ReachableStatesNeverWrapThePc : Prop :=
  ∀ s : State, s.Reachable → s.pc.toNat ≤ 0x10FE ∧ ¬ (s.fault ≠ none ∧ s.awaitingKey ≠ none)
end

