-- ==== Sys2Proof/Laws/Decode.lean ====
section
/-! SUPPORT. The fields of an assembled word, for each of the three shapes of R77. -/

namespace Sys2Proof

@[simp] theorem regOf_nibble (r : Reg) : regOf (nibble r) = r := by
  apply Fin.ext
  have := r.isLt
  simp [regOf, nibble]

@[simp] theorem nibble_regOf (v : BitVec 4) : nibble (regOf v) = v := by
  simp [regOf, nibble]

/-- Joining a high part and a low part of `k` bits. -/
theorem high_or_low {k a b : Nat} (h : b < 2 ^ k) : a * 2 ^ k ||| b = a * 2 ^ k + b := by
  rw [Nat.mul_comm, ← Nat.two_pow_add_eq_or_of_lt h]

/-- A word of four nibbles as a number. -/
theorem wordXYN_toNat (c : BitVec 4) (x y : Reg) (n : Nat) :
    (wordXYN c x y n).toNat = c.toNat * 4096 + x.val * 256 + y.val * 16 + n % 16 := by
  have hc := c.isLt
  have hx := x.isLt
  have hy := y.isLt
  have e1 : c.toNat * 4096 ||| x.val * 256 = (c.toNat * 16 + x.val) * 2 ^ 8 := by
    rw [show c.toNat * 4096 = c.toNat * 2 ^ 12 by omega, high_or_low (by omega)]; omega
  have e2 : (c.toNat * 16 + x.val) * 2 ^ 8 ||| y.val * 16 = ((c.toNat * 16 + x.val) * 16 + y.val) * 2 ^ 4 := by
    rw [high_or_low (by omega)]; omega
  simp only [wordXYN, zext16, nibble, BitVec.toNat_or, BitVec.toNat_shiftLeft, BitVec.toNat_setWidth,
    BitVec.toNat_ofNat, Nat.shiftLeft_eq]
  rw [show c.toNat % 2 ^ 16 * 2 ^ 12 % 2 ^ 16 = c.toNat * 4096 by omega,
    show x.val % 2 ^ 4 % 2 ^ 16 * 2 ^ 8 % 2 ^ 16 = x.val * 256 by omega,
    show y.val % 2 ^ 4 % 2 ^ 16 * 2 ^ 4 % 2 ^ 16 = y.val * 16 by omega,
    show n % 2 ^ 4 % 2 ^ 16 = n % 16 by omega, e1, e2, high_or_low (by omega)]
  omega

theorem wordXKK_toNat (c : BitVec 4) (x : Reg) (kk : Byte) :
    (wordXKK c x kk).toNat = c.toNat * 4096 + x.val * 256 + kk.toNat := by
  have hc := c.isLt
  have hx := x.isLt
  have hk := kk.isLt
  have e1 : c.toNat * 4096 ||| x.val * 256 = (c.toNat * 16 + x.val) * 2 ^ 8 := by
    rw [show c.toNat * 4096 = c.toNat * 2 ^ 12 by omega, high_or_low (by omega)]; omega
  simp only [wordXKK, zext16, nibble, BitVec.toNat_or, BitVec.toNat_shiftLeft, BitVec.toNat_setWidth,
    BitVec.toNat_ofNat, Nat.shiftLeft_eq]
  rw [show c.toNat % 2 ^ 16 * 2 ^ 12 % 2 ^ 16 = c.toNat * 4096 by omega,
    show x.val % 2 ^ 4 % 2 ^ 16 * 2 ^ 8 % 2 ^ 16 = x.val * 256 by omega,
    show kk.toNat % 2 ^ 16 = kk.toNat by omega, e1, high_or_low (by omega)]
  omega

theorem wordNNN_toNat (c : BitVec 4) (nnn : Addr) : (wordNNN c nnn).toNat = c.toNat * 4096 + nnn.toNat := by
  have hc := c.isLt
  have hn := nnn.isLt
  simp only [wordNNN, zext16, BitVec.toNat_or, BitVec.toNat_shiftLeft, BitVec.toNat_setWidth, Nat.shiftLeft_eq]
  rw [show c.toNat % 2 ^ 16 * 2 ^ 12 % 2 ^ 16 = c.toNat * 2 ^ 12 by omega,
    show nnn.toNat % 2 ^ 16 = nnn.toNat by omega, high_or_low (by omega)]
  omega

/-! ## The fields as numbers (R76) -/

theorem fieldC_toNat (op : Word) : (fieldC op).toNat = op.toNat / 4096 := by
  have := op.isLt
  simp [fieldC, BitVec.extractLsb'_toNat, Nat.shiftRight_eq_div_pow]; omega

theorem fieldX_val (op : Word) : (fieldX op).val = op.toNat / 256 % 16 := by
  simp [fieldX, regOf, BitVec.extractLsb'_toNat, Nat.shiftRight_eq_div_pow]

theorem fieldY_val (op : Word) : (fieldY op).val = op.toNat / 16 % 16 := by
  simp [fieldY, regOf, BitVec.extractLsb'_toNat, Nat.shiftRight_eq_div_pow]

theorem fieldN_eq (op : Word) : fieldN op = op.toNat % 16 := by
  simp [fieldN, BitVec.extractLsb'_toNat]

theorem fieldKK_toNat (op : Word) : (fieldKK op).toNat = op.toNat % 256 := by
  simp [fieldKK, BitVec.extractLsb'_toNat]

theorem fieldNNN_toNat (op : Word) : (fieldNNN op).toNat = op.toNat % 4096 := by
  simp [fieldNNN, BitVec.extractLsb'_toNat]

/-! ## The fields of assembled words -/

section xyn
variable (c : BitVec 4) (x y : Reg) (n : Nat)

@[simp] theorem fieldC_wordXYN : fieldC (wordXYN c x y n) = c := by
  apply BitVec.eq_of_toNat_eq
  rw [fieldC_toNat, wordXYN_toNat]; omega

@[simp] theorem fieldX_wordXYN : fieldX (wordXYN c x y n) = x := by
  apply Fin.ext
  rw [fieldX_val, wordXYN_toNat]; omega

@[simp] theorem fieldY_wordXYN : fieldY (wordXYN c x y n) = y := by
  apply Fin.ext
  rw [fieldY_val, wordXYN_toNat]; omega

@[simp] theorem fieldN_wordXYN : fieldN (wordXYN c x y n) = n % 16 := by
  rw [fieldN_eq, wordXYN_toNat]; omega
end xyn

section xkk
variable (c : BitVec 4) (x : Reg) (kk : Byte)

@[simp] theorem fieldC_wordXKK : fieldC (wordXKK c x kk) = c := by
  apply BitVec.eq_of_toNat_eq
  rw [fieldC_toNat, wordXKK_toNat]; omega

@[simp] theorem fieldX_wordXKK : fieldX (wordXKK c x kk) = x := by
  apply Fin.ext
  rw [fieldX_val, wordXKK_toNat]; omega

@[simp] theorem fieldKK_wordXKK : fieldKK (wordXKK c x kk) = kk := by
  apply BitVec.eq_of_toNat_eq
  rw [fieldKK_toNat, wordXKK_toNat]; omega
end xkk

section nnn
variable (c : BitVec 4) (nnn : Addr)

@[simp] theorem fieldC_wordNNN : fieldC (wordNNN c nnn) = c := by
  apply BitVec.eq_of_toNat_eq
  rw [fieldC_toNat, wordNNN_toNat]; omega

@[simp] theorem fieldNNN_wordNNN : fieldNNN (wordNNN c nnn) = nnn := by
  apply BitVec.eq_of_toNat_eq
  rw [fieldNNN_toNat, wordNNN_toNat]; omega
end nnn

/-! ## What a class says of the word -/

/-- The fixed digits of each class's pattern (R82), in terms of the fields. -/
def patternOf (op : Word) : Cls → Prop
  | .cls => op = 0x00E0
  | .ret => op = 0x00EE
  | .jp => fieldC op = 0x1
  | .call => fieldC op = 0x2
  | .seImm => fieldC op = 0x3
  | .sneImm => fieldC op = 0x4
  | .seReg => fieldC op = 0x5 ∧ fieldN op = 0
  | .ldImm => fieldC op = 0x6
  | .addImm => fieldC op = 0x7
  | .ldReg => fieldC op = 0x8 ∧ fieldN op = 0x0
  | .orReg => fieldC op = 0x8 ∧ fieldN op = 0x1
  | .andReg => fieldC op = 0x8 ∧ fieldN op = 0x2
  | .xorReg => fieldC op = 0x8 ∧ fieldN op = 0x3
  | .addReg => fieldC op = 0x8 ∧ fieldN op = 0x4
  | .subReg => fieldC op = 0x8 ∧ fieldN op = 0x5
  | .shr => fieldC op = 0x8 ∧ fieldN op = 0x6
  | .subn => fieldC op = 0x8 ∧ fieldN op = 0x7
  | .shl => fieldC op = 0x8 ∧ fieldN op = 0xE
  | .sneReg => fieldC op = 0x9 ∧ fieldN op = 0
  | .ldI => fieldC op = 0xA
  | .jpV0 => fieldC op = 0xB
  | .rnd => fieldC op = 0xC
  | .drw => fieldC op = 0xD
  | .skp => fieldC op = 0xE ∧ fieldKK op = 0x9E
  | .sknp => fieldC op = 0xE ∧ fieldKK op = 0xA1
  | .ldVxDt => fieldC op = 0xF ∧ fieldKK op = 0x07
  | .ldVxKey => fieldC op = 0xF ∧ fieldKK op = 0x0A
  | .ldDtVx => fieldC op = 0xF ∧ fieldKK op = 0x15
  | .ldStVx => fieldC op = 0xF ∧ fieldKK op = 0x18
  | .addI => fieldC op = 0xF ∧ fieldKK op = 0x1E
  | .ldFont => fieldC op = 0xF ∧ fieldKK op = 0x29
  | .ldBcd => fieldC op = 0xF ∧ fieldKK op = 0x33
  | .storeRegs => fieldC op = 0xF ∧ fieldKK op = 0x55
  | .loadRegs => fieldC op = 0xF ∧ fieldKK op = 0x65
  | .unknown => True

/-- A nibble is one of sixteen. -/
theorem nibble_cases (v : BitVec 4) :
    v = 0 ∨ v = 1 ∨ v = 2 ∨ v = 3 ∨ v = 4 ∨ v = 5 ∨ v = 6 ∨ v = 7 ∨ v = 8 ∨ v = 9 ∨ v = 10 ∨ v = 11 ∨ v = 12 ∨
      v = 13 ∨ v = 14 ∨ v = 15 := by
  revert v; decide

theorem classify8_pattern (op : Word) (h : fieldC op = 0x8) : patternOf op (classify8 (fieldN op)) := by
  unfold classify8
  split <;> simp_all [patternOf]

theorem classifyE_pattern (op : Word) (h : fieldC op = 0xE) : patternOf op (classifyE (fieldKK op)) := by
  unfold classifyE
  repeat' split
  all_goals simp_all [patternOf]

theorem classifyF_pattern (op : Word) (h : fieldC op = 0xF) : patternOf op (classifyF (fieldKK op)) := by
  unfold classifyF
  repeat' split
  all_goals simp_all [patternOf]

theorem classify0_pattern (op : Word) : patternOf op (classify0 op) := by
  unfold classify0
  repeat' split
  all_goals simp_all [patternOf]

/-- A word has the fixed digits of the class it is given. -/
theorem classify_pattern (op : Word) : patternOf op (classify op) := by
  unfold classify
  rcases nibble_cases (fieldC op) with h | h | h | h | h | h | h | h | h | h | h | h | h | h | h | h <;>
    simp only [h, BitVec.ofNat_eq_ofNat, BitVec.reduceToNat]
  case inr.inr.inr.inr.inr.inr.inr.inr.inl => exact classify8_pattern op h
  case inl => exact classify0_pattern op
  all_goals first
    | exact classifyE_pattern op h
    | exact classifyF_pattern op h
    | exact h
    | (split; · exact ⟨h, by assumption⟩
       · trivial)

/-- A word that has a class's fixed digits is given that class. -/
theorem classify_eq {op : Word} {c : Cls} (h : patternOf op c) (hc : c ≠ .unknown) : classify op = c := by
  cases c <;> simp only [patternOf] at h
  case unknown => exact absurd rfl hc
  case cls => subst h; rfl
  case ret => subst h; rfl
  all_goals first
    | (unfold classify; rw [h]; rfl)
    | (unfold classify; rw [h.1, h.2]; rfl)

/-! ## A word from its own fields -/

theorem wordXYN_fields (op : Word) : wordXYN (fieldC op) (fieldX op) (fieldY op) (fieldN op) = op := by
  apply BitVec.eq_of_toNat_eq
  rw [wordXYN_toNat, fieldC_toNat, fieldX_val, fieldY_val, fieldN_eq]; omega

theorem wordXKK_fields (op : Word) : wordXKK (fieldC op) (fieldX op) (fieldKK op) = op := by
  apply BitVec.eq_of_toNat_eq
  rw [wordXKK_toNat, fieldC_toNat, fieldX_val, fieldKK_toNat]; omega

theorem wordNNN_fields (op : Word) : wordNNN (fieldC op) (fieldNNN op) = op := by
  apply BitVec.eq_of_toNat_eq
  rw [wordNNN_toNat, fieldC_toNat, fieldNNN_toNat]; omega

end Sys2Proof
end

