-- ==== Sys2Proof/Laws/Framebuffer.lean ====
section
/-! SUPPORT. Laws of the framebuffer: one flip, a fold of flips, and the places of a sprite's pixels. -/

namespace Sys2Proof.Machine

@[simp] theorem get_clear (p : Pixel) : Framebuffer.clear.get p = false := by
  simp [Framebuffer.clear, Framebuffer.get]

theorem get_flip (fb : Framebuffer) (p q : Pixel) :
    (fb.flip p).get q = if q = p then !fb.get p else fb.get q := by
  obtain ⟨r, c⟩ := p
  obtain ⟨r', c'⟩ := q
  simp only [Framebuffer.flip, Framebuffer.get, Fin.getElem_fin, Prod.mk.injEq]
  by_cases hr : r' = r
  · subst hr
    by_cases hc : c' = c
    · subst hc; simp
    · have : c.val ≠ c'.val := fun e => hc (Fin.ext e.symm)
      simp [hc, this]
  · have : r.val ≠ r'.val := fun e => hr (Fin.ext e.symm)
    simp [hr, this]

/-- Two framebuffers with the same pixels are the same. -/
theorem framebuffer_ext {f g : Framebuffer} (h : ∀ p, f.get p = g.get p) : f = g := by
  apply Vector.ext
  intro r hr
  apply Vector.ext
  intro c hc
  exact h (⟨r, hr⟩, ⟨c, hc⟩)

/-- Drawing a list of different places: each of them is flipped once, and `hit` tells whether one was set. -/
theorem foldl_drawPixel {ps : List Pixel} (hps : ps.Nodup) (fb : Framebuffer) (hit : Bool) :
    (∀ q, (ps.foldl drawPixel (fb, hit)).1.get q = (fb.get q ^^ decide (q ∈ ps))) ∧
    (ps.foldl drawPixel (fb, hit)).2 = (hit || ps.any fb.get) := by
  induction ps generalizing fb hit with
  | nil => simp
  | cons p ps ih =>
    rw [List.nodup_cons] at hps
    obtain ⟨h1, h2⟩ := ih hps.2 (fb.flip p) (hit || fb.get p)
    have hstep : (p :: ps).foldl drawPixel (fb, hit) = ps.foldl drawPixel (fb.flip p, hit || fb.get p) := rfl
    rw [hstep]
    constructor
    · intro q
      rw [h1, get_flip]
      by_cases hq : q = p
      · subst hq; simp [hps.1]
      · simp [hq]
    · rw [h2, List.any_cons, Bool.or_assoc]
      congr 2
      rw [Bool.eq_iff_iff, List.any_eq_true, List.any_eq_true]
      constructor
      · rintro ⟨q, hq, hget⟩
        have hqp : q ≠ p := fun e => hps.1 (e ▸ hq)
        exact ⟨q, hq, by simpa [get_flip, hqp] using hget⟩
      · rintro ⟨q, hq, hget⟩
        have hqp : q ≠ p := fun e => hps.1 (e ▸ hq)
        exact ⟨q, hq, by simpa [get_flip, hqp] using hget⟩

/-- Offsets below 32 and 64 fall on different places. -/
theorem spritePlace_inj {cx cy : Byte} {r c r' c' : Nat} (hr : r < 32) (hr' : r' < 32) (hc : c < 64) (hc' : c' < 64)
    (h : spritePlace cx cy r c = spritePlace cx cy r' c') : r = r' ∧ c = c' := by
  simp only [spritePlace, Prod.mk.injEq, Fin.ext_iff, Fin.ofNat] at h
  omega

/-- The places of the set pixels of one sprite row. -/
theorem mem_spriteRowPixels {cx cy : Byte} {r : Nat} {row : Byte} {p : Pixel} :
    p ∈ spriteRowPixels cx cy r row ↔ ∃ c, c < 8 ∧ spriteBit row c = true ∧ p = spritePlace cx cy r c := by
  simp only [spriteRowPixels, List.mem_map, List.mem_filter, List.mem_range]
  constructor
  · rintro ⟨c, ⟨hc, hb⟩, rfl⟩; exact ⟨c, hc, hb, rfl⟩
  · rintro ⟨c, hc, hb, rfl⟩; exact ⟨c, ⟨hc, hb⟩, rfl⟩

/-- The places of the set pixels of sprite rows. -/
theorem mem_spritePixelsFrom {cx cy : Byte} {k : Nat} {rows : List Byte} {p : Pixel} :
    p ∈ spritePixelsFrom cx cy k rows ↔
      ∃ r c, r < rows.length ∧ c < 8 ∧ spriteBit (rows.getD r 0) c = true ∧ p = spritePlace cx cy (k + r) c := by
  induction rows generalizing k with
  | nil => simp [spritePixelsFrom]
  | cons row rows ih =>
    simp only [spritePixelsFrom, List.mem_append, mem_spriteRowPixels, ih, List.length_cons]
    constructor
    · rintro (⟨c, hc, hb, rfl⟩ | ⟨r, c, hr, hc, hb, rfl⟩)
      · exact ⟨0, c, by omega, hc, by simpa using hb, rfl⟩
      · exact ⟨r + 1, c, by omega, hc, by simpa using hb, by rw [show k + (r + 1) = k + 1 + r by omega]⟩
    · rintro ⟨r, c, hr, hc, hb, rfl⟩
      cases r with
      | zero => exact .inl ⟨c, hc, by simpa using hb, rfl⟩
      | succ r => exact .inr ⟨r, c, by omega, hc, by simpa using hb, by rw [show k + (r + 1) = k + 1 + r by omega]⟩

/-- No pixel is drawn twice by one instruction (R201). -/
theorem spritePixelsFrom_nodup {cx cy : Byte} {k : Nat} {rows : List Byte} (h : k + rows.length ≤ 32) :
    (spritePixelsFrom cx cy k rows).Nodup := by
  induction rows generalizing k with
  | nil => exact List.nodup_nil
  | cons row rows ih =>
    rw [List.length_cons] at h
    refine List.nodup_append'.mpr ⟨?_, ih (by omega), ?_⟩
    · refine List.Nodup.map_on ?_ (List.nodup_range.filter _)
      intro c hc c' hc' he
      rw [List.mem_filter, List.mem_range] at hc hc'
      exact (spritePlace_inj (by omega) (by omega) (by omega) (by omega) he).2
    · intro p hp hq
      obtain ⟨c, hc, -, rfl⟩ := mem_spriteRowPixels.mp hp
      obtain ⟨r, c', hr, hc', -, he⟩ := mem_spritePixelsFrom.mp hq
      have := (spritePlace_inj (by omega) (by omega) (by omega) (by omega) he).1
      omega

end Sys2Proof.Machine
end

