-- ==== Sys2Proof/Laws/Memory.lean ====
section
/-! SUPPORT. Laws of memory: read after write, the canonical form, and that equal reads make equal memories. -/

namespace Sys2Proof.Machine

open Memory

@[simp] theorem read_nil (a : Nat) : Memory.read [] a = unlisted a := rfl

theorem read_cons (c : Host.Cell) (m : Memory) (a : Nat) :
    Memory.read (c :: m) a = if c.1 = a then c.2 else Memory.read m a := rfl

/-- An address that no cell lists reads as unlisted. -/
theorem read_eq_unlisted {m : Memory} {a : Nat} (h : ∀ c ∈ m, c.1 ≠ a) : Memory.read m a = unlisted a := by
  induction m with
  | nil => rfl
  | cons c m ih =>
    rw [read_cons, if_neg (h c (by simp))]
    exact ih fun d hd => h d (by simp [hd])

/-- A listed cell of a canonical memory is what is read there. -/
theorem read_of_mem {m : Memory} (hm : m.Pairwise fun c d => c.1 < d.1) {c : Host.Cell} (hc : c ∈ m) :
    Memory.read m c.1 = c.2 := by
  induction m with
  | nil => cases hc
  | cons d m ih =>
    rw [List.pairwise_cons] at hm
    rcases List.mem_cons.mp hc with rfl | hc
    · rw [read_cons, if_pos rfl]
    · rw [read_cons, if_neg (Nat.ne_of_lt (hm.1 c hc)), ih hm.2 hc]

/-- Putting a cell in front of cells at higher addresses. -/
theorem read_putCell {m : Memory} {a : Nat} (v : Byte) (h : ∀ c ∈ m, a < c.1) (b : Nat) :
    Memory.read (putCell a v m) b = if a = b then v else Memory.read m b := by
  unfold putCell
  by_cases hv : v = unlisted a
  · rw [if_pos hv]
    split
    · next hab => subst hab; rw [hv, read_eq_unlisted fun c hc => Nat.ne_of_gt (h c hc)]
    · rfl
  · rw [if_neg hv, read_cons]

/-- Reading after a store of one byte. -/
theorem read_write {m : Memory} (hm : m.Pairwise fun c d => c.1 < d.1) (a : Nat) (v : Byte) (b : Nat) :
    Memory.read (write m a v) b = if a = b then v else Memory.read m b := by
  induction m with
  | nil => exact read_putCell v (by simp) b
  | cons c m ih =>
    rw [List.pairwise_cons] at hm
    unfold write
    by_cases h1 : a < c.1
    · rw [if_pos h1]
      refine read_putCell v (fun d hd => ?_) b
      rcases List.mem_cons.mp hd with rfl | hd
      · exact h1
      · exact Nat.lt_trans h1 (hm.1 d hd)
    · rw [if_neg h1]
      by_cases h2 : a = c.1
      · rw [if_pos h2, read_putCell v (fun d hd => h2 ▸ hm.1 d hd), read_cons]
        subst h2; split <;> simp_all
      · rw [if_neg h2, read_cons, ih hm.2, read_cons]
        split
        · next hcb => subst hcb; rw [if_neg h2]
        · rfl

/-- The cells after a store of one byte are cells before it, or the stored one. -/
theorem mem_write {m : Memory} {a : Nat} {v : Byte} {c : Host.Cell} (h : c ∈ write m a v) :
    c ∈ m ∨ (c = (a, v) ∧ v ≠ unlisted a) := by
  have hput : ∀ {n : Memory}, c ∈ putCell a v n → c ∈ n ∨ (c = (a, v) ∧ v ≠ unlisted a) := by
    intro n hn
    unfold putCell at hn
    split at hn
    · exact .inl hn
    · next hv =>
      rcases List.mem_cons.mp hn with rfl | hn
      · exact .inr ⟨rfl, hv⟩
      · exact .inl hn
  induction m with
  | nil => exact hput h
  | cons d m ih =>
    unfold write at h
    split at h
    · exact hput h
    · split at h
      · rcases hput h with h | h
        · exact .inl (List.mem_cons_of_mem _ h)
        · exact .inr h
      · rcases List.mem_cons.mp h with rfl | h
        · exact .inl (by simp)
        · rcases ih h with h | h
          · exact .inl (List.mem_cons_of_mem _ h)
          · exact .inr h

/-- A store keeps the addresses rising. -/
theorem write_sorted {m : Memory} (hm : m.Pairwise fun c d => c.1 < d.1) (a : Nat) (v : Byte) :
    (write m a v).Pairwise fun c d => c.1 < d.1 := by
  have hput : ∀ {n : Memory}, n.Pairwise (fun c d => c.1 < d.1) → (∀ c ∈ n, a < c.1) →
      (putCell a v n).Pairwise fun c d => c.1 < d.1 := by
    intro n hn ha
    unfold putCell
    split
    · exact hn
    · exact List.pairwise_cons.mpr ⟨ha, hn⟩
  induction m with
  | nil => exact hput .nil (by simp)
  | cons c m ih =>
    have hc := List.pairwise_cons.mp hm
    unfold write
    split
    · next h =>
      refine hput hm fun d hd => ?_
      rcases List.mem_cons.mp hd with rfl | hd
      · exact h
      · exact Nat.lt_trans h (hc.1 d hd)
    · split
      · next h => exact hput hc.2 fun d hd => h ▸ hc.1 d hd
      · next h1 h2 =>
        refine List.pairwise_cons.mpr ⟨fun d hd => ?_, ih hc.2⟩
        rcases mem_write hd with hd | ⟨rfl, -⟩
        · exact hc.1 d hd
        · show c.1 < a; omega

/-- A store of one byte inside the memory keeps the canonical form. -/
theorem write_wf {m : Memory} (hm : m.wf) {a : Nat} (ha : a < Config.memSize) (v : Byte) : (write m a v).wf := by
  refine ⟨write_sorted hm.1 a v, fun c hc => ?_⟩
  rcases mem_write hc with hc | ⟨rfl, hv⟩
  · exact hm.2 c hc
  · exact ⟨ha, hv⟩

/-- A store of bytes keeps the addresses rising. -/
theorem writeBytes_sorted {m : Memory} (hm : m.Pairwise fun c d => c.1 < d.1) (a : Nat) (vs : List Byte) :
    (writeBytes m a vs).Pairwise fun c d => c.1 < d.1 := by
  induction vs generalizing m a with
  | nil => exact hm
  | cons v vs ih => exact ih (write_sorted hm a v) (a + 1)

/-- A store of bytes inside the memory keeps the canonical form. -/
theorem writeBytes_wf {m : Memory} (hm : m.wf) {a : Nat} {vs : List Byte}
    (h : a + vs.length ≤ Config.memSize) : (writeBytes m a vs).wf := by
  induction vs generalizing m a with
  | nil => exact hm
  | cons v vs ih =>
    rw [List.length_cons] at h
    exact ih (write_wf hm (by omega) v) (by omega)

/-- Reading after a store of bytes: the stored byte inside the block, the old byte outside it. -/
theorem read_writeBytes {m : Memory} (hm : m.Pairwise fun c d => c.1 < d.1) (a : Nat) (vs : List Byte) (b : Nat) :
    Memory.read (writeBytes m a vs) b =
      if a ≤ b ∧ b < a + vs.length then vs.getD (b - a) 0 else Memory.read m b := by
  induction vs generalizing m a with
  | nil => rw [if_neg (by simp)]; rfl
  | cons v vs ih =>
    show Memory.read (writeBytes (write m a v) (a + 1) vs) b = _
    rw [ih (write_sorted hm a v), read_write hm]
    simp only [List.length_cons]
    by_cases hab : a = b
    · subst hab
      rw [if_neg (by omega), if_pos rfl, if_pos (by omega)]
      simp
    · by_cases hin : a + 1 ≤ b ∧ b < a + 1 + vs.length
      · rw [if_pos hin, if_pos (by omega)]
        obtain ⟨k, hk⟩ : ∃ k, b - a = k + 1 := ⟨b - a - 1, by omega⟩
        rw [hk, show b - (a + 1) = k by omega]
        simp
      · rw [if_neg hin, if_neg hab, if_neg (by omega)]

/-- Outside the stored bytes nothing changes. -/
theorem read_writeBytes_outside {m : Memory} (hm : m.Pairwise fun c d => c.1 < d.1) {a : Nat} {vs : List Byte}
    {b : Nat} (h : b < a ∨ a + vs.length ≤ b) : Memory.read (writeBytes m a vs) b = Memory.read m b := by
  rw [read_writeBytes hm, if_neg (by omega)]

/-- The bytes of a block, one by one. -/
@[simp] theorem readBytes_length (m : Memory) (a n : Nat) : (readBytes m a n).length = n := by simp [readBytes]

theorem readBytes_getElem (m : Memory) (a n : Nat) {j : Nat} (h : j < (readBytes m a n).length) :
    (readBytes m a n)[j] = Memory.read m (a + j) := by simp [readBytes]

/-- What is read back from a block just stored. -/
theorem readBytes_writeBytes {m : Memory} (hm : m.Pairwise fun c d => c.1 < d.1) (a : Nat) (vs : List Byte) :
    readBytes (writeBytes m a vs) a vs.length = vs := by
  apply List.ext_getElem
  · simp
  · intro j h1 h2
    rw [readBytes_getElem, read_writeBytes hm, if_pos (by omega)]
    simp [h2]

/-- Two canonical memories that read the same at every address have the same cells. -/
theorem wf_ext_subset {m n : Memory} (hm : m.wf) (hn : n.wf)
    (h : ∀ a, Memory.read m a = Memory.read n a) : ∀ c ∈ m, c ∈ n := by
  intro c hc
  have hr : Memory.read n c.1 = c.2 := by rw [← h, read_of_mem hm.1 hc]
  by_contra hnot
  have : Memory.read n c.1 = unlisted c.1 := by
    refine read_eq_unlisted fun d hd hdc => ?_
    have : Memory.read n c.1 = d.2 := by rw [← hdc, read_of_mem hn.1 hd]
    exact hnot (by
      have e : c = d := Prod.ext hdc.symm (by rw [← hr, this])
      rwa [e])
  exact (hm.2 c hc).2 (by rw [← hr, this])

end Sys2Proof.Machine
end

