-- ==== Sys2Proof/Laws/State.lean ====
section
/-! SUPPORT. What the named updates of a state do to each field, so that no proof unfolds a record update. -/

namespace Sys2Proof.Machine

section setReg
variable (s : State) (x : Reg) (v : Byte)

@[simp] theorem setReg_reg_same : (s.setReg x v).reg x = v := by simp [State.setReg, State.reg]

theorem setReg_reg_ne {y : Reg} (h : y ≠ x) : (s.setReg x v).reg y = s.reg y := by
  have : x.val ≠ y.val := fun e => h (Fin.ext e.symm)
  simp [State.setReg, State.reg, this]

theorem setReg_reg (y : Reg) : (s.setReg x v).reg y = if y = x then v else s.reg y := by
  split
  · next h => subst h; simp
  · next h => exact setReg_reg_ne s x v h

@[simp] theorem setReg_mem : (s.setReg x v).mem = s.mem := rfl
@[simp] theorem setReg_I : (s.setReg x v).I = s.I := rfl
@[simp] theorem setReg_pc : (s.setReg x v).pc = s.pc := rfl
@[simp] theorem setReg_stack : (s.setReg x v).stack = s.stack := rfl
@[simp] theorem setReg_sp : (s.setReg x v).sp = s.sp := rfl
@[simp] theorem setReg_DT : (s.setReg x v).DT = s.DT := rfl
@[simp] theorem setReg_ST : (s.setReg x v).ST = s.ST := rfl
@[simp] theorem setReg_fb : (s.setReg x v).fb = s.fb := rfl
@[simp] theorem setReg_key : (s.setReg x v).key = s.key := rfl
@[simp] theorem setReg_awaitingKey : (s.setReg x v).awaitingKey = s.awaitingKey := rfl
@[simp] theorem setReg_cur : (s.setReg x v).cur = s.cur := rfl
@[simp] theorem setReg_fault : (s.setReg x v).fault = s.fault := rfl
@[simp] theorem setReg_params : (s.setReg x v).params = s.params := rfl
@[simp] theorem setReg_result : (s.setReg x v).result = s.result := rfl
@[simp] theorem setReg_schedule : (s.setReg x v).schedule = s.schedule := rfl
@[simp] theorem setReg_draws : (s.setReg x v).draws = s.draws := rfl
end setReg

section advance
variable (s : State) (k : Word)

@[simp] theorem advance_pc : (s.advance k).pc = s.pc + k := rfl
@[simp] theorem advance_reg (x : Reg) : (s.advance k).reg x = s.reg x := rfl
@[simp] theorem advance_V : (s.advance k).V = s.V := rfl
@[simp] theorem advance_mem : (s.advance k).mem = s.mem := rfl
@[simp] theorem advance_I : (s.advance k).I = s.I := rfl
@[simp] theorem advance_stack : (s.advance k).stack = s.stack := rfl
@[simp] theorem advance_sp : (s.advance k).sp = s.sp := rfl
@[simp] theorem advance_DT : (s.advance k).DT = s.DT := rfl
@[simp] theorem advance_ST : (s.advance k).ST = s.ST := rfl
@[simp] theorem advance_fb : (s.advance k).fb = s.fb := rfl
@[simp] theorem advance_key : (s.advance k).key = s.key := rfl
@[simp] theorem advance_awaitingKey : (s.advance k).awaitingKey = s.awaitingKey := rfl
@[simp] theorem advance_cur : (s.advance k).cur = s.cur := rfl
@[simp] theorem advance_fault : (s.advance k).fault = s.fault := rfl
@[simp] theorem advance_params : (s.advance k).params = s.params := rfl
@[simp] theorem advance_result : (s.advance k).result = s.result := rfl
@[simp] theorem advance_schedule : (s.advance k).schedule = s.schedule := rfl
@[simp] theorem advance_draws : (s.advance k).draws = s.draws := rfl
end advance

section returning
variable (s : State) (redraw timers : Bool)

@[simp] theorem returning_result : (s.returning redraw timers).result = okResult redraw timers := rfl
@[simp] theorem returning_reg (x : Reg) : (s.returning redraw timers).reg x = s.reg x := rfl
@[simp] theorem returning_V : (s.returning redraw timers).V = s.V := rfl
@[simp] theorem returning_mem : (s.returning redraw timers).mem = s.mem := rfl
@[simp] theorem returning_I : (s.returning redraw timers).I = s.I := rfl
@[simp] theorem returning_pc : (s.returning redraw timers).pc = s.pc := rfl
@[simp] theorem returning_stack : (s.returning redraw timers).stack = s.stack := rfl
@[simp] theorem returning_sp : (s.returning redraw timers).sp = s.sp := rfl
@[simp] theorem returning_DT : (s.returning redraw timers).DT = s.DT := rfl
@[simp] theorem returning_ST : (s.returning redraw timers).ST = s.ST := rfl
@[simp] theorem returning_fb : (s.returning redraw timers).fb = s.fb := rfl
@[simp] theorem returning_key : (s.returning redraw timers).key = s.key := rfl
@[simp] theorem returning_awaitingKey : (s.returning redraw timers).awaitingKey = s.awaitingKey := rfl
@[simp] theorem returning_cur : (s.returning redraw timers).cur = s.cur := rfl
@[simp] theorem returning_fault : (s.returning redraw timers).fault = s.fault := rfl
@[simp] theorem returning_params : (s.returning redraw timers).params = s.params := rfl
@[simp] theorem returning_schedule : (s.returning redraw timers).schedule = s.schedule := rfl
@[simp] theorem returning_draws : (s.returning redraw timers).draws = s.draws := rfl
end returning

section raise
variable (e : FatalError) (op : Option Word) (s : State)

@[simp] theorem raise_fault : (raise e op s).fault = some { error := e, pc := s.pc, op := op } := rfl
@[simp] theorem raise_result :
    (raise e op s).result = plainResult (.faultStatus { error := e, pc := s.pc, op := op }) := rfl
@[simp] theorem raise_reg (x : Reg) : (raise e op s).reg x = s.reg x := rfl
@[simp] theorem raise_V : (raise e op s).V = s.V := rfl
@[simp] theorem raise_mem : (raise e op s).mem = s.mem := rfl
@[simp] theorem raise_I : (raise e op s).I = s.I := rfl
@[simp] theorem raise_pc : (raise e op s).pc = s.pc := rfl
@[simp] theorem raise_stack : (raise e op s).stack = s.stack := rfl
@[simp] theorem raise_sp : (raise e op s).sp = s.sp := rfl
@[simp] theorem raise_DT : (raise e op s).DT = s.DT := rfl
@[simp] theorem raise_ST : (raise e op s).ST = s.ST := rfl
@[simp] theorem raise_fb : (raise e op s).fb = s.fb := rfl
@[simp] theorem raise_key : (raise e op s).key = s.key := rfl
@[simp] theorem raise_awaitingKey : (raise e op s).awaitingKey = s.awaitingKey := rfl
@[simp] theorem raise_cur : (raise e op s).cur = s.cur := rfl
@[simp] theorem raise_params : (raise e op s).params = s.params := rfl
@[simp] theorem raise_schedule : (raise e op s).schedule = s.schedule := rfl
@[simp] theorem raise_draws : (raise e op s).draws = s.draws := rfl
end raise

/-- A register is read from the register file alone. -/
theorem reg_eq_of_V_eq {s t : State} (h : t.V = s.V) (x : Reg) : t.reg x = s.reg x := by
  simp only [State.reg, h]

/-! ## Frames -/

/-- A frame from the fields: each piece of state is equal or named, and memory is compared as data. -/
theorem frame_of_fields {s t : State} {ps : List Part} {rs : List Reg}
    (hreg : ∀ r, r ∉ rs → t.reg r = s.reg r)
    (hI : Part.I ∈ ps ∨ t.I = s.I) (hmem : Part.mem ∈ ps ∨ t.mem = s.mem)
    (hstack : Part.stack ∈ ps ∨ t.stack = s.stack) (hsp : Part.sp ∈ ps ∨ t.sp = s.sp)
    (hDT : Part.DT ∈ ps ∨ t.DT = s.DT) (hST : Part.ST ∈ ps ∨ t.ST = s.ST)
    (hfb : Part.fb ∈ ps ∨ t.fb = s.fb) (hkey : Part.key ∈ ps ∨ t.key = s.key)
    (hwait : Part.awaitingKey ∈ ps ∨ t.awaitingKey = s.awaitingKey) (hfault : Part.fault ∈ ps ∨ t.fault = s.fault)
    (hdraws : Part.draws ∈ ps ∨ t.draws = s.draws)
    (hcur : t.cur = s.cur) (hparams : t.params = s.params) (hschedule : t.schedule = s.schedule) :
    Frame s t ps rs where
  regs := hreg
  I := hI.resolve_left
  mem hn a := by rw [hmem.resolve_left hn]
  stack := hstack.resolve_left
  sp := hsp.resolve_left
  DT := hDT.resolve_left
  ST := hST.resolve_left
  fb := hfb.resolve_left
  key := hkey.resolve_left
  awaitingKey := hwait.resolve_left
  fault := hfault.resolve_left
  draws := hdraws.resolve_left
  cur := hcur
  params := hparams
  schedule := hschedule

/-- Nothing changes from a state to itself. -/
theorem frame_refl (s : State) (ps : List Part) (rs : List Reg) : Frame s s ps rs :=
  frame_of_fields (fun _ _ => rfl) (.inr rfl) (.inr rfl) (.inr rfl) (.inr rfl) (.inr rfl) (.inr rfl) (.inr rfl)
    (.inr rfl) (.inr rfl) (.inr rfl) (.inr rfl) rfl rfl rfl

/-- Frames of the same pieces compose. -/
theorem frame_trans {s t u : State} {ps : List Part} {rs : List Reg} (h : Frame s t ps rs) (k : Frame t u ps rs) :
    Frame s u ps rs where
  regs r hr := (k.regs r hr).trans (h.regs r hr)
  I hn := (k.I hn).trans (h.I hn)
  mem hn a := (k.mem hn a).trans (h.mem hn a)
  stack hn := (k.stack hn).trans (h.stack hn)
  sp hn := (k.sp hn).trans (h.sp hn)
  DT hn := (k.DT hn).trans (h.DT hn)
  ST hn := (k.ST hn).trans (h.ST hn)
  fb hn := (k.fb hn).trans (h.fb hn)
  key hn := (k.key hn).trans (h.key hn)
  awaitingKey hn := (k.awaitingKey hn).trans (h.awaitingKey hn)
  fault hn := (k.fault hn).trans (h.fault hn)
  draws hn := (k.draws hn).trans (h.draws hn)
  cur := k.cur.trans h.cur
  params := k.params.trans h.params
  schedule := k.schedule.trans h.schedule

end Sys2Proof.Machine
end

