-- ==== Sys2Proof/Laws/Ops.lean ====
section
/-! SUPPORT. What each shared operation can do, said once: the checked accesses, the stack, the ways an instruction
ends. Proofs cite these and do not unfold the operations. -/

namespace Sys2Proof.Machine

/-! ## Checked accesses -/

theorem memRead_ok {m : Memory} {addr : Word} {n : Nat} (h : addr.toNat + n - 1 ≤ 0xFFF) :
    memRead m addr n = .ok (m.readBytes addr.toNat n) := if_neg (by omega)

theorem memRead_error {m : Memory} {addr : Word} {n : Nat} (h : addr.toNat + n - 1 > 0xFFF) :
    memRead m addr n = .error (.outOfBounds addr.toNat n) := if_pos h

theorem memWrite_ok {m : Memory} {addr : Word} {bytes : List Byte} (h : addr.toNat + bytes.length - 1 ≤ 0xFFF) :
    memWrite m addr bytes = .ok (m.writeBytes addr.toNat bytes) := if_neg (by omega)

theorem memWrite_error {m : Memory} {addr : Word} {bytes : List Byte} (h : addr.toNat + bytes.length - 1 > 0xFFF) :
    memWrite m addr bytes = .error (.outOfBounds addr.toNat bytes.length) := if_pos h

theorem fetch_ok {m : Memory} {pc : Word} (h : pc.toNat ≤ 0xFFE) :
    fetch m pc = .ok (joinBytes (m.read pc.toNat) (m.read (pc.toNat + 1))) := if_neg (by omega)

theorem fetch_error {m : Memory} {pc : Word} (h : 0xFFF ≤ pc.toNat) :
    fetch m pc = .error (.outOfBounds pc.toNat 2) := if_pos (by omega)

/-- A word joined from two bytes, as a number. -/
theorem joinBytes_toNat (hi lo : Byte) : (joinBytes hi lo).toNat = hi.toNat * 256 + lo.toNat := by
  have h1 := hi.isLt
  have h2 := lo.isLt
  unfold joinBytes zext16
  rw [BitVec.toNat_or, BitVec.toNat_shiftLeft, BitVec.toNat_setWidth, BitVec.toNat_setWidth,
    Nat.mod_eq_of_lt (by omega), Nat.mod_eq_of_lt (by omega), Nat.shiftLeft_eq, Nat.mod_eq_of_lt (by omega),
    Nat.mul_comm, show 2 ^ 8 * hi.toNat ||| lo.toNat = 2 ^ 8 * hi.toNat + lo.toNat from
      (Nat.two_pow_add_eq_or_of_lt h2 hi.toNat).symm]

/-- The bytes of a word, joined again. -/
theorem joinBytes_wordBytes (op : Word) : joinBytes (op.extractLsb' 8 8) (op.extractLsb' 0 8) = op := by
  apply BitVec.eq_of_toNat_eq
  rw [joinBytes_toNat]
  have := op.isLt
  simp [BitVec.extractLsb'_toNat, Nat.shiftRight_eq_div_pow]
  omega

/-! ## Stack -/

theorem stackPush_ok {v : Word} {s : State} (h : s.sp.val < 16) :
    stackPush v s = .ok { s with stack := s.stack.set s.sp.val v, sp := ⟨s.sp.val + 1, by omega⟩ } := dif_pos h

theorem stackPush_error {v : Word} {s : State} (h : s.sp.val = 16) :
    stackPush v s = .error (.stackOverflow 16) := by
  unfold stackPush; rw [dif_neg (by omega), h]

theorem stackPop_ok {s : State} (h : 0 < s.sp.val) :
    stackPop s = .ok (s.stack[s.sp.val - 1]'(by omega), { s with sp := ⟨s.sp.val - 1, by omega⟩ }) := dif_pos h

theorem stackPop_error {s : State} (h : s.sp.val = 0) : stackPop s = .error (.stackUnderflow 0) := by
  unfold stackPop; rw [dif_neg (by omega), h]

/-! ## Keypad -/

theorem keyRead_ok {keys : Vector Bool 16} {k : Byte} (h : k.toNat ≤ 0xF) :
    keyRead keys k = .ok (keys[k.toNat]'(by omega)) := dif_neg (by omega)

theorem keyRead_error {keys : Vector Bool 16} {k : Byte} (h : k.toNat > 0xF) :
    keyRead keys k = .error (.outOfBounds k.toNat 1) := dif_pos h

/-! ## Ends of an instruction -/

@[simp] theorem orRaise_ok {α : Type} (a : α) (s : State) (k : α → Outcome) : orRaise (.ok a) s k = k a := rfl

@[simp] theorem orRaise_error {α : Type} (e : FatalError) (s : State) (k : α → Outcome) :
    orRaise (.error e) s k = .next (raise e (some s.cur) s) := rfl

/-- A checked access goes on, or its error is the next state. -/
theorem orRaise_next {α : Type} {access : Except FatalError α} {s t : State} {k : α → Outcome}
    (h : orRaise access s k = .next t) :
    (∃ a, access = .ok a ∧ k a = .next t) ∨ (∃ e, access = .error e ∧ t = raise e (some s.cur) s) := by
  cases access with
  | ok a => exact .inl ⟨a, rfl, h⟩
  | error e => exact .inr ⟨e, rfl, (Host.Outcome.next.inj h).symm⟩

/-! ## Register blocks -/

@[simp] theorem regBlock_length (x : Reg) (s : State) : (regBlock x s).length = x.val + 1 := by
  have := x.isLt
  simp [regBlock]

theorem regBlock_getD (x : Reg) (s : State) (r : Reg) (h : r.val ≤ x.val) :
    (regBlock x s).getD r.val 0 = s.reg r := by
  have hx := x.isLt
  simp [regBlock, State.reg, Nat.lt_succ_of_le h]

/-- The registers after a block is written from register `j` on. -/
theorem setRegsFrom_getElem (V : Vector Byte 16) (j : Nat) (bytes : List Byte) (r : Nat) (hr : r < 16) :
    (setRegsFrom V j bytes)[r] = if j ≤ r ∧ r < j + bytes.length then bytes.getD (r - j) 0 else V[r] := by
  induction bytes generalizing V j with
  | nil => rw [if_neg (by simp)]; rfl
  | cons b bs ih =>
    show (setRegsFrom (V.setIfInBounds j b) (j + 1) bs)[r] = _
    rw [ih, Vector.getElem_setIfInBounds]
    simp only [List.length_cons]
    by_cases hjr : j = r
    · subst hjr
      rw [if_neg (by omega), if_pos rfl, if_pos (by omega)]
      simp
    · by_cases hin : j + 1 ≤ r ∧ r < j + 1 + bs.length
      · rw [if_pos hin, if_pos (by omega)]
        obtain ⟨k, hk⟩ : ∃ k, r - j = k + 1 := ⟨r - j - 1, by omega⟩
        rw [hk, show r - (j + 1) = k by omega]
        simp
      · rw [if_neg hin, if_neg hjr, if_neg (by omega)]

@[simp] theorem bcdDigits_length (v : Byte) : (bcdDigits v).length = 3 := rfl

/-! ## The ALU's writes -/

/-- The registers after the ALU's outputs are written: the destination last (R151). -/
theorem writeAlu_reg (x : Reg) (out : AluOut) (s : State) (r : Reg) :
    (writeAlu x out s).reg r =
      if r = x then out.r
      else if r = vf then (match out.flag with | some f => boolByte f | none => s.reg r)
      else s.reg r := by
  unfold writeAlu
  cases out.flag with
  | none => rw [setReg_reg]; split <;> simp
  | some f => rw [setReg_reg, setReg_reg]

/-- The ALU's outputs go to registers alone. -/
theorem writeAlu_eq (x : Reg) (out : AluOut) (s : State) : ∃ V, writeAlu x out s = { s with V := V } := by
  unfold writeAlu
  cases out.flag with
  | none => exact ⟨_, rfl⟩
  | some f => exact ⟨_, rfl⟩

end Sys2Proof.Machine
end

