-- ==== Sys2Proof/Laws/Exec.lean ====
section
/-! SUPPORT. The instructions that check something before they act: what each does where its check passes. The other
instructions are their own definitions. Also the exactness of the pc sums (spec/10_state.md R29) and how the checks
of Safety.lean read. -/

namespace Sys2Proof.Machine

/-! ## The checks of faultOf -/

theorem outside_none {a : Word} {n : Nat} (h : outside a n = none) : a.toNat + n - 1 ≤ 0xFFF := by
  unfold outside at h
  split at h
  · cases h
  · omega

theorem outside_some {a : Word} {n : Nat} {e : FatalError} (h : outside a n = some e) :
    a.toNat + n - 1 > 0xFFF ∧ e = .outOfBounds a.toNat n := by
  unfold outside at h
  split at h
  · next h' => exact ⟨h', (Option.some.inj h).symm⟩
  · cases h

theorem noKey_none {k : Byte} (h : noKey k = none) : k.toNat ≤ 0xF := by
  unfold noKey at h
  split at h
  · cases h
  · omega

theorem noKey_some {k : Byte} {e : FatalError} (h : noKey k = some e) :
    k.toNat > 0xF ∧ e = .outOfBounds k.toNat 1 := by
  unfold noKey at h
  split at h
  · next h' => exact ⟨h', (Option.some.inj h).symm⟩
  · cases h

/-- The key a register names is the one the keypad primitive reads. -/
theorem keyNamed_eq (s : State) (x : Reg) (h : (s.reg x).toNat ≤ 0xF) :
    keyNamed s x = s.key[(s.reg x).toNat]'(by omega) := by
  unfold keyNamed
  have : (s.reg x).toNat < 16 := by omega
  simp [this]

/-! ## Exact pc sums -/

theorem toNat_pc_add_two {pc : Word} (h : pc.toNat ≤ 0xFFE) : (pc + 2).toNat = pc.toNat + 2 := by
  rw [BitVec.toNat_add]
  exact Nat.mod_eq_of_lt (by simp; omega)

theorem toNat_pc_add_four {pc : Word} (h : pc.toNat ≤ 0xFFE) : (pc + 4).toNat = pc.toNat + 4 := by
  rw [BitVec.toNat_add]
  exact Nat.mod_eq_of_lt (by simp; omega)

theorem target_toNat (nnn : Addr) : (target nnn).toNat = nnn.toNat := by
  have := nnn.isLt
  simp only [target, zext16, BitVec.toNat_setWidth]
  omega

theorem targetV0_toNat (nnn : Addr) (s : State) : (targetV0 nnn s).toNat = nnn.toNat + (s.reg 0).toNat := by
  have := nnn.isLt
  have := (s.reg 0).isLt
  simp only [targetV0, zext16, BitVec.toNat_add, BitVec.toNat_setWidth]
  omega

/-! ## The checked instructions -/

section
variable (s : State) (x y : Reg) (nnn : Addr) (n : Nat)

theorem exec_ret_ok (h : 0 < s.sp.val) :
    exec .ret s = jumpTo (s.stack[s.sp.val - 1]'(by omega)) { s with sp := ⟨s.sp.val - 1, by omega⟩ } := by
  simp only [exec, execRet, stackPop_ok h, orRaise_ok]

theorem exec_call_ok (h : s.sp.val < 16) :
    exec (.call nnn) s = jumpTo (target nnn)
      { s with stack := s.stack.set s.sp.val (s.pc + 2), sp := ⟨s.sp.val + 1, by omega⟩ } := by
  simp only [exec, execCall, stackPush_ok h, orRaise_ok]

theorem exec_skp_ok (h : (s.reg x).toNat ≤ 0xF) :
    exec (.skp x) s = skipIf (s.key[(s.reg x).toNat]'(by omega)) s := by
  simp only [exec, execSkp, keyRead_ok h, orRaise_ok]

theorem exec_sknp_ok (h : (s.reg x).toNat ≤ 0xF) :
    exec (.sknp x) s = skipIf (!s.key[(s.reg x).toNat]'(by omega)) s := by
  simp only [exec, execSknp, keyRead_ok h, orRaise_ok]

theorem storeAtI_ok (bytes : List Byte) (h : s.I.toNat + bytes.length - 1 ≤ 0xFFF) :
    storeAtI bytes s = complete false false { s with mem := s.mem.writeBytes s.I.toNat bytes } := by
  simp only [storeAtI, memWrite_ok h, orRaise_ok]

theorem exec_ldBcd_ok (h : s.I.toNat + 2 ≤ 0xFFF) :
    exec (.ldBcd x) s =
      complete false false { s with mem := s.mem.writeBytes s.I.toNat (bcdDigits (s.reg x)) } :=
  storeAtI_ok s _ (by simpa using h)

theorem exec_storeRegs_ok (h : s.I.toNat + x.val ≤ 0xFFF) :
    exec (.storeRegs x) s =
      complete false false { s with mem := s.mem.writeBytes s.I.toNat (regBlock x s) } :=
  storeAtI_ok s _ (by simpa using h)

theorem exec_loadRegs_ok (h : s.I.toNat + x.val ≤ 0xFFF) :
    exec (.loadRegs x) s =
      complete false false { s with V := setRegsFrom s.V 0 (s.mem.readBytes s.I.toNat (x.val + 1)) } := by
  simp only [exec, execLoadRegs, memRead_ok (show s.I.toNat + (x.val + 1) - 1 ≤ 0xFFF by omega), orRaise_ok]

theorem spriteRows_ok (h : n = 0 ∨ s.I.toNat + n - 1 ≤ 0xFFF) :
    spriteRows n s = .ok (s.mem.readBytes s.I.toNat n) := by
  unfold spriteRows
  split
  · next h0 => subst h0; rfl
  · next h0 => exact memRead_ok (by omega)

theorem exec_drw_ok (h : n = 0 ∨ s.I.toNat + n - 1 ≤ 0xFFF) :
    exec (.drw x y n) s =
      let drawn := drawSprite s.fb (s.reg x) (s.reg y) (s.mem.readBytes s.I.toNat n)
      complete true false (({ s with fb := drawn.1 } : State).setReg vf (boolByte drawn.2)) := by
  simp only [exec, execDrw, spriteRows_ok s n h, orRaise_ok]
end

end Sys2Proof.Machine
end

