-- ==== Sys2Proof/Laws/Load.lean ====
section
/-! SUPPORT. What `Load` leaves: the bytes of memory, its canonical form, and every other field. -/

namespace Sys2Proof.Machine

@[simp] theorem fontBytes_length (font : Config.Font) : (fontBytes font).length = 80 := by simp [fontBytes]

theorem fontBytes_getD (font : Config.Font) {a : Nat} (h : a < 80) : (fontBytes font).getD a 0 = fontByte font a := by
  simp [fontBytes, h]

theorem fontByte_above (font : Config.Font) {a : Nat} (h : ¬ a < 80) : fontByte font a = 0 := dif_neg h

theorem nil_wf : Memory.wf [] := ⟨.nil, by simp⟩

/-- Memory after `Load` of a program that fits is in its canonical form. -/
theorem loadedMemory_wf (font : Config.Font) {rom : List Byte} (h : rom.length ≤ Config.maxRom) :
    (loadedMemory font rom).wf := by
  unfold Config.maxRom at h
  refine writeBytes_wf (writeBytes_wf nil_wf ?_) ?_
  · rw [fontBytes_length]; decide
  · unfold Config.progBase Config.memSize; omega

/-- The bytes of memory after `Load` (R44, R260, R263). -/
theorem read_loadedMemory (font : Config.Font) (rom : List Byte) (a : Nat) :
    (loadedMemory font rom).read a =
      if a < 80 then fontByte font a
      else if 0x200 ≤ a ∧ a < 0x200 + rom.length then rom.getD (a - 0x200) 0 else 0 := by
  unfold loadedMemory Config.progBase
  rw [read_writeBytes (writeBytes_sorted nil_wf.1 _ _), read_writeBytes nil_wf.1, fontBytes_length, read_nil,
    Nat.sub_zero]
  by_cases h80 : a < 80
  · rw [if_neg (by omega), if_pos (by omega), if_pos h80, fontBytes_getD font h80]
  · rw [if_neg h80]
    split
    · rfl
    · rw [if_neg (by omega)]; exact fontByte_above _ h80

/-- `Load` of a program that fits. -/
theorem load_ok {rom : List Byte} (s : State) (h : rom.length ≤ Config.maxRom) :
    load rom s =
      { State.reset with
        mem      := loadedMemory s.params.font rom
        params   := s.params
        schedule := s.schedule
        draws    := s.draws } := if_neg (by omega)

/-- `Load` of a program that does not fit. -/
theorem load_error {rom : List Byte} (s : State) (h : Config.maxRom < rom.length) :
    load rom s = { s with result := plainResult (.romTooLarge rom.length) } := if_pos h

end Sys2Proof.Machine
end

