-- ==== Sys2Proof/Laws/PerInstr.lean ====
section
/-! SUPPORT. Statements for all instructions, one lemma per constructor. The family EncodedInRow: the word of an
instruction lies in its own row of the opcode map (spec/30_encoding.md R82), whatever its operands. -/

namespace Sys2Proof.Laws.EncodedInRow

/-- The class of an instruction: the constructor of the same name. -/
def classOf : Instr → Cls
  | .cls => .cls | .ret => .ret | .jp _ => .jp | .call _ => .call | .seImm _ _ => .seImm | .sneImm _ _ => .sneImm
  | .seReg _ _ => .seReg | .ldImm _ _ => .ldImm | .addImm _ _ => .addImm | .ldReg _ _ => .ldReg | .orReg _ _ => .orReg
  | .andReg _ _ => .andReg | .xorReg _ _ => .xorReg | .addReg _ _ => .addReg | .subReg _ _ => .subReg
  | .shr _ _ => .shr | .subn _ _ => .subn | .shl _ _ => .shl | .sneReg _ _ => .sneReg | .ldI _ => .ldI
  | .jpV0 _ => .jpV0 | .rnd _ _ => .rnd | .drw _ _ _ => .drw | .skp _ => .skp | .sknp _ => .sknp
  | .ldVxDt _ => .ldVxDt | .ldVxKey _ => .ldVxKey | .ldDtVx _ => .ldDtVx | .ldStVx _ => .ldStVx | .addI _ => .addI
  | .ldFont _ => .ldFont | .ldBcd _ => .ldBcd | .storeRegs _ => .storeRegs | .loadRegs _ => .loadRegs

/-- The instruction's word matches the row of its class. -/
def Statement (i : Instr) : Prop := ∃ r ∈ opcodeMap, r.cls = classOf i ∧ r.hits (encode i) = true

/-! What the masks of R82 leave of an assembled word. -/

theorem hits_nnn (c : BitVec 4) (nnn : Addr) : wordNNN c nnn &&& 0xF000 = wordNNN c 0 := by
  ext k hk
  simp only [wordNNN, zext16, BitVec.getElem_and, BitVec.getElem_or, BitVec.getElem_shiftLeft,
    BitVec.getElem_setWidth]
  interval_cases k <;> simp

theorem hits_xkk (c : BitVec 4) (x : Reg) (kk : Byte) : wordXKK c x kk &&& 0xF000 = wordXKK c 0 0 := by
  ext k hk
  simp only [wordXKK, zext16, BitVec.getElem_and, BitVec.getElem_or, BitVec.getElem_shiftLeft,
    BitVec.getElem_setWidth]
  interval_cases k <;> simp [nibble]

theorem hits_x (c : BitVec 4) (x : Reg) (kk : Byte) : wordXKK c x kk &&& 0xF0FF = wordXKK c 0 kk := by
  ext k hk
  simp only [wordXKK, zext16, BitVec.getElem_and, BitVec.getElem_or, BitVec.getElem_shiftLeft,
    BitVec.getElem_setWidth]
  interval_cases k <;> simp [nibble]

theorem hits_xyn (c : BitVec 4) (x y : Reg) (n : Nat) : wordXYN c x y n &&& 0xF000 = wordXYN c 0 0 0 := by
  ext k hk
  simp only [wordXYN, zext16, BitVec.getElem_and, BitVec.getElem_or, BitVec.getElem_shiftLeft,
    BitVec.getElem_setWidth]
  interval_cases k <;> simp [nibble]

theorem hits_xy (c : BitVec 4) (x y : Reg) (n : Nat) : wordXYN c x y n &&& 0xF00F = wordXYN c 0 0 n := by
  ext k hk
  simp only [wordXYN, zext16, BitVec.getElem_and, BitVec.getElem_or, BitVec.getElem_shiftLeft,
    BitVec.getElem_setWidth]
  interval_cases k <;> simp [nibble]

theorem cls : Statement .cls := by unfold Statement; decide
theorem ret : Statement .ret := by unfold Statement; decide
theorem jp (nnn : Addr) : Statement (.jp nnn) :=
  ⟨⟨.jp, 0xF000, 0x1000⟩, by decide, rfl, by simp only [OpcodeRow.hits, encode, hits_nnn]; decide⟩
theorem call (nnn : Addr) : Statement (.call nnn) :=
  ⟨⟨.call, 0xF000, 0x2000⟩, by decide, rfl, by simp only [OpcodeRow.hits, encode, hits_nnn]; decide⟩
theorem seImm (x : Reg) (kk : Byte) : Statement (.seImm x kk) :=
  ⟨⟨.seImm, 0xF000, 0x3000⟩, by decide, rfl, by simp only [OpcodeRow.hits, encode, hits_xkk]; decide⟩
theorem sneImm (x : Reg) (kk : Byte) : Statement (.sneImm x kk) :=
  ⟨⟨.sneImm, 0xF000, 0x4000⟩, by decide, rfl, by simp only [OpcodeRow.hits, encode, hits_xkk]; decide⟩
theorem seReg (x y : Reg) : Statement (.seReg x y) :=
  ⟨⟨.seReg, 0xF00F, 0x5000⟩, by decide, rfl, by simp only [OpcodeRow.hits, encode, hits_xy]; decide⟩
theorem ldImm (x : Reg) (kk : Byte) : Statement (.ldImm x kk) :=
  ⟨⟨.ldImm, 0xF000, 0x6000⟩, by decide, rfl, by simp only [OpcodeRow.hits, encode, hits_xkk]; decide⟩
theorem addImm (x : Reg) (kk : Byte) : Statement (.addImm x kk) :=
  ⟨⟨.addImm, 0xF000, 0x7000⟩, by decide, rfl, by simp only [OpcodeRow.hits, encode, hits_xkk]; decide⟩
theorem ldReg (x y : Reg) : Statement (.ldReg x y) :=
  ⟨⟨.ldReg, 0xF00F, 0x8000⟩, by decide, rfl, by simp only [OpcodeRow.hits, encode, hits_xy]; decide⟩
theorem orReg (x y : Reg) : Statement (.orReg x y) :=
  ⟨⟨.orReg, 0xF00F, 0x8001⟩, by decide, rfl, by simp only [OpcodeRow.hits, encode, hits_xy]; decide⟩
theorem andReg (x y : Reg) : Statement (.andReg x y) :=
  ⟨⟨.andReg, 0xF00F, 0x8002⟩, by decide, rfl, by simp only [OpcodeRow.hits, encode, hits_xy]; decide⟩
theorem xorReg (x y : Reg) : Statement (.xorReg x y) :=
  ⟨⟨.xorReg, 0xF00F, 0x8003⟩, by decide, rfl, by simp only [OpcodeRow.hits, encode, hits_xy]; decide⟩
theorem addReg (x y : Reg) : Statement (.addReg x y) :=
  ⟨⟨.addReg, 0xF00F, 0x8004⟩, by decide, rfl, by simp only [OpcodeRow.hits, encode, hits_xy]; decide⟩
theorem subReg (x y : Reg) : Statement (.subReg x y) :=
  ⟨⟨.subReg, 0xF00F, 0x8005⟩, by decide, rfl, by simp only [OpcodeRow.hits, encode, hits_xy]; decide⟩
theorem shr (x y : Reg) : Statement (.shr x y) :=
  ⟨⟨.shr, 0xF00F, 0x8006⟩, by decide, rfl, by simp only [OpcodeRow.hits, encode, hits_xy]; decide⟩
theorem subn (x y : Reg) : Statement (.subn x y) :=
  ⟨⟨.subn, 0xF00F, 0x8007⟩, by decide, rfl, by simp only [OpcodeRow.hits, encode, hits_xy]; decide⟩
theorem shl (x y : Reg) : Statement (.shl x y) :=
  ⟨⟨.shl, 0xF00F, 0x800E⟩, by decide, rfl, by simp only [OpcodeRow.hits, encode, hits_xy]; decide⟩
theorem sneReg (x y : Reg) : Statement (.sneReg x y) :=
  ⟨⟨.sneReg, 0xF00F, 0x9000⟩, by decide, rfl, by simp only [OpcodeRow.hits, encode, hits_xy]; decide⟩
theorem ldI (nnn : Addr) : Statement (.ldI nnn) :=
  ⟨⟨.ldI, 0xF000, 0xA000⟩, by decide, rfl, by simp only [OpcodeRow.hits, encode, hits_nnn]; decide⟩
theorem jpV0 (nnn : Addr) : Statement (.jpV0 nnn) :=
  ⟨⟨.jpV0, 0xF000, 0xB000⟩, by decide, rfl, by simp only [OpcodeRow.hits, encode, hits_nnn]; decide⟩
theorem rnd (x : Reg) (kk : Byte) : Statement (.rnd x kk) :=
  ⟨⟨.rnd, 0xF000, 0xC000⟩, by decide, rfl, by simp only [OpcodeRow.hits, encode, hits_xkk]; decide⟩
theorem drw (x y : Reg) (n : Nat) : Statement (.drw x y n) :=
  ⟨⟨.drw, 0xF000, 0xD000⟩, by decide, rfl, by simp only [OpcodeRow.hits, encode, hits_xyn]; decide⟩
theorem skp (x : Reg) : Statement (.skp x) :=
  ⟨⟨.skp, 0xF0FF, 0xE09E⟩, by decide, rfl, by simp only [OpcodeRow.hits, encode, hits_x]; decide⟩
theorem sknp (x : Reg) : Statement (.sknp x) :=
  ⟨⟨.sknp, 0xF0FF, 0xE0A1⟩, by decide, rfl, by simp only [OpcodeRow.hits, encode, hits_x]; decide⟩
theorem ldVxDt (x : Reg) : Statement (.ldVxDt x) :=
  ⟨⟨.ldVxDt, 0xF0FF, 0xF007⟩, by decide, rfl, by simp only [OpcodeRow.hits, encode, hits_x]; decide⟩
theorem ldVxKey (x : Reg) : Statement (.ldVxKey x) :=
  ⟨⟨.ldVxKey, 0xF0FF, 0xF00A⟩, by decide, rfl, by simp only [OpcodeRow.hits, encode, hits_x]; decide⟩
theorem ldDtVx (x : Reg) : Statement (.ldDtVx x) :=
  ⟨⟨.ldDtVx, 0xF0FF, 0xF015⟩, by decide, rfl, by simp only [OpcodeRow.hits, encode, hits_x]; decide⟩
theorem ldStVx (x : Reg) : Statement (.ldStVx x) :=
  ⟨⟨.ldStVx, 0xF0FF, 0xF018⟩, by decide, rfl, by simp only [OpcodeRow.hits, encode, hits_x]; decide⟩
theorem addI (x : Reg) : Statement (.addI x) :=
  ⟨⟨.addI, 0xF0FF, 0xF01E⟩, by decide, rfl, by simp only [OpcodeRow.hits, encode, hits_x]; decide⟩
theorem ldFont (x : Reg) : Statement (.ldFont x) :=
  ⟨⟨.ldFont, 0xF0FF, 0xF029⟩, by decide, rfl, by simp only [OpcodeRow.hits, encode, hits_x]; decide⟩
theorem ldBcd (x : Reg) : Statement (.ldBcd x) :=
  ⟨⟨.ldBcd, 0xF0FF, 0xF033⟩, by decide, rfl, by simp only [OpcodeRow.hits, encode, hits_x]; decide⟩
theorem storeRegs (x : Reg) : Statement (.storeRegs x) :=
  ⟨⟨.storeRegs, 0xF0FF, 0xF055⟩, by decide, rfl, by simp only [OpcodeRow.hits, encode, hits_x]; decide⟩
theorem loadRegs (x : Reg) : Statement (.loadRegs x) :=
  ⟨⟨.loadRegs, 0xF0FF, 0xF065⟩, by decide, rfl, by simp only [OpcodeRow.hits, encode, hits_x]; decide⟩

end Sys2Proof.Laws.EncodedInRow
end

