-- ==== Sys2Proof/Laws/Rows.lean ====
section
/-! SUPPORT. What the masks of the opcode map (spec/30_encoding.md R82) say in terms of the fields, and which words
decode to an instruction of a class. -/

namespace Sys2Proof

theorem mask_all (op p : Word) : op &&& 0xFFFF = p ↔ op = p := by
  have hfull : op &&& 0xFFFF = op := by
    ext k hk
    simp only [BitVec.getElem_and]
    interval_cases k <;> simp
  rw [hfull]

theorem mask_c (op : Word) (c : BitVec 4) : op &&& 0xF000 = wordXKK c 0 0 ↔ fieldC op = c := by
  rw [← wordXKK_fields op, Laws.EncodedInRow.hits_xkk]
  constructor
  · intro h; simpa using congrArg fieldC h
  · intro h; rw [fieldC_wordXKK] at h; rw [h]

theorem mask_c_kk (op : Word) (c : BitVec 4) (kk : Byte) :
    op &&& 0xF0FF = wordXKK c 0 kk ↔ fieldC op = c ∧ fieldKK op = kk := by
  rw [← wordXKK_fields op, Laws.EncodedInRow.hits_x]
  constructor
  · intro h; exact ⟨by simpa using congrArg fieldC h, by simpa using congrArg fieldKK h⟩
  · rintro ⟨h, h'⟩; rw [fieldC_wordXKK] at h; rw [fieldKK_wordXKK] at h'; rw [h, h']

theorem mask_c_n (op : Word) (c : BitVec 4) (n : Nat) (hn : n < 16) :
    op &&& 0xF00F = wordXYN c 0 0 n ↔ fieldC op = c ∧ fieldN op = n := by
  have hlt : fieldN op < 16 := (op.extractLsb' 0 4).isLt
  conv_lhs => rw [← wordXYN_fields op]
  rw [Laws.EncodedInRow.hits_xy]
  constructor
  · intro h
    have h1 := congrArg fieldC h
    have h2 := congrArg fieldN h
    simp only [fieldC_wordXYN, fieldN_wordXYN] at h1 h2
    exact ⟨h1, by omega⟩
  · rintro ⟨h, h'⟩; rw [h, h']

/-- The instruction a record gives is of the record's class. -/
theorem classOf_instr? {d : Decoded} {i : Instr} (h : d.instr? = some i) : Laws.EncodedInRow.classOf i = d.cls := by
  unfold Decoded.instr? at h
  split at h <;> cases h <;> simp_all [Laws.EncodedInRow.classOf]

/-- An instruction with the fields of the word is decoded from exactly the words with the fixed digits of its class. -/
theorem decode_iff_pattern {c : Cls} {i : Word → Instr} (hc : c ≠ .unknown)
    (hi : ∀ op, ({ decodeFields op with cls := c } : Decoded).instr? = some (i op)) (op : Word) :
    decode op = .ok (i op) ↔ patternOf op c := by
  constructor
  · intro h
    have hd : (decodeFields op).instr? = some (i op) := by
      unfold decode at h
      split at h
      · next j hj => rw [hj]; exact congrArg some (Except.ok.inj h)
      · cases h
    have : c = classify op := (classOf_instr? (hi op)).symm.trans (classOf_instr? hd)
    exact this ▸ classify_pattern op
  · intro h
    have hcls : decodeFields op = { decodeFields op with cls := c } := by
      unfold decodeFields
      rw [classify_eq h hc]
    unfold decode
    rw [hcls, hi op]

end Sys2Proof
end

