-- ==== Sys2Proof/Laws/Step.lean ====
section
/-! SUPPORT. What a step does, said once: the next operation, the fetch, the decoded instruction. -/

namespace Sys2Proof.Machine

/-- The decoder on exactly two bytes. -/
theorem decode_of_decodeBytes {hi lo : Byte} {i : Instr} (h : decodeBytes [hi, lo] = .ok (i, [])) :
    decode (joinBytes hi lo) = .ok i := by
  simp only [decodeBytes] at h
  cases hd : decode (joinBytes hi lo) <;> simp_all

/-! ## The schedule -/

@[simp] theorem take_soon (op : Op) (ops : List Op) (later : Later) :
    Schedule.take { soon := op :: ops, later := later } = (op, { soon := ops, later := later }) := rfl

@[simp] theorem take_stepping :
    Schedule.take { soon := [], later := .repeating [] } = (.step, { soon := [], later := .repeating [] }) := rfl

@[simp] theorem take_repeating (op : Op) (ops : List Op) :
    Schedule.take { soon := [], later := .repeating (op :: ops) } =
      (op, { soon := ops, later := .repeating (op :: ops) }) := rfl

@[simp] theorem take_free (k : Nat) :
    Schedule.take { soon := [], later := .free k } = (Config.laterOp k, { soon := [], later := .free (k + 1) }) := rfl

/-- A step performs the operation that the schedule gives. -/
theorem step_take {s : State} {op : Op} {rest : Schedule} (h : s.schedule.take = (op, rest)) :
    step s = perform op { s with schedule := rest } := by
  unfold step nextOp
  rw [h]

/-! ## One `Step` -/

theorem coreStep_faulted {s : State} {f : FaultRecord} (h : s.fault = some f) :
    coreStep s = .next { s with result := plainResult (.faultStatus f) } := by
  unfold coreStep
  rw [h]

theorem coreStep_waiting {s : State} {r : Reg} (hf : s.fault = none) (hw : s.awaitingKey = some r) :
    coreStep s = .next { s with result := plainResult .waiting } := by
  unfold coreStep
  rw [hf, hw]

theorem coreStep_fetched {s : State} {op : Word} (hf : s.fault = none) (hw : s.awaitingKey = none)
    (hfetch : fetch s.mem s.pc = .ok op) : coreStep s = runWord op s := by
  unfold coreStep
  rw [hf, hw]
  simp only [hfetch]

theorem coreStep_unfetched {s : State} {e : FatalError} (hf : s.fault = none) (hw : s.awaitingKey = none)
    (hfetch : fetch s.mem s.pc = .error e) : coreStep s = .next (raise e none s) := by
  unfold coreStep
  rw [hf, hw]
  simp only [hfetch]

theorem runWord_ok {s : State} {op : Word} {i : Instr} (h : decode op = .ok i) :
    runWord op s = exec i { s with cur := op } := by
  unfold runWord
  rw [h]

theorem runWord_unknown {s : State} {op : Word} {e : DecodeError} (h : decode op = .error e) :
    runWord op s = .next (execUnknown op { s with cur := op }) := by
  unfold runWord
  rw [h]

/-- A sprite height that comes out of the decoder is at most 15. -/
theorem decode_wellFormed {op : Word} {i : Instr} (h : decode op = .ok i) : i.wellFormed = true := by
  have hn : fieldN op < 16 := (op.extractLsb' 0 4).isLt
  unfold decode decodeFields Decoded.instr? at h
  generalize classify op = c at h
  cases c <;> simp only [Except.ok.injEq, reduceCtorEq] at h
  all_goals subst h
  case drw => simp only [Instr.wellFormed, decide_eq_true_eq]; omega
  all_goals rfl

/-- Everything `Step` can do (R100). -/
theorem coreStep_cases (s : State) :
    (∃ f, s.fault = some f ∧ coreStep s = .next { s with result := plainResult (.faultStatus f) }) ∨
    (∃ r, s.fault = none ∧ s.awaitingKey = some r ∧ coreStep s = .next { s with result := plainResult .waiting }) ∨
    (s.fault = none ∧ s.awaitingKey = none ∧ 0xFFF ≤ s.pc.toNat ∧
      coreStep s = .next (raise (.outOfBounds s.pc.toNat 2) none s)) ∨
    (∃ op i, s.fault = none ∧ s.awaitingKey = none ∧ s.pc.toNat ≤ 0xFFE ∧ i.wellFormed = true ∧
      coreStep s = exec i { s with cur := op }) ∨
    (∃ op, s.fault = none ∧ s.awaitingKey = none ∧ s.pc.toNat ≤ 0xFFE ∧
      coreStep s = .next (execUnknown op { s with cur := op })) := by
  rcases Option.eq_none_or_eq_some s.fault with hf | ⟨f, hf⟩
  · rcases Option.eq_none_or_eq_some s.awaitingKey with hw | ⟨r, hw⟩
    · by_cases hpc : 0xFFF ≤ s.pc.toNat
      · exact .inr (.inr (.inl ⟨hf, hw, hpc, coreStep_unfetched hf hw (fetch_error hpc)⟩))
      · have hpc' : s.pc.toNat ≤ 0xFFE := by omega
        have hrun := coreStep_fetched hf hw (fetch_ok (m := s.mem) hpc')
        cases hd : decode (joinBytes (s.mem.read s.pc.toNat) (s.mem.read (s.pc.toNat + 1))) with
        | ok i =>
          exact .inr (.inr (.inr (.inl ⟨_, i, hf, hw, hpc', decode_wellFormed hd, hrun.trans (runWord_ok hd)⟩)))
        | error e =>
          exact .inr (.inr (.inr (.inr ⟨_, hf, hw, hpc', hrun.trans (runWord_unknown hd)⟩)))
    · exact .inr (.inl ⟨r, hf, hw, coreStep_waiting hf hw⟩)
  · exact .inl ⟨f, hf, coreStep_faulted hf⟩

end Sys2Proof.Machine
end

