-- ==== Sys2Proof/Tests/Slice0.lean ====
section
/-! SUPPORT. The model's own tests. The expected results are those of spec/95_test_vectors.md, whose row each test
names. Then, for every statement with hypotheses, a concrete state and operands that meet them. -/

namespace Sys2Proof.Tests

open Sys2Proof.Machine

/-! ## Well-formedness: the one check, on both sides of its bound -/

theorem test_wellFormed_refuses_a_sprite_of_16_rows : (Instr.drw 0 0 16).wellFormed = false := by decide
theorem test_wellFormed_takes_a_sprite_of_15_rows : (Instr.drw 0 0 15).wellFormed = true := by decide

/-! ## Decoding: a word of every constructor, bit by bit from the patterns of R82 -/

theorem test_decode_class0 :
    decode 0b0000_0000_1110_0000 = .ok .cls ∧ decode 0b0000_0000_1110_1110 = .ok .ret := by decide

theorem test_decode_jumps_and_skips :
    decode 0b0001_1010_1011_1100 = .ok (.jp 0xABC) ∧ decode 0b0010_0011_0000_0001 = .ok (.call 0x301) ∧
    decode 0b0011_0011_0100_0010 = .ok (.seImm 3 0x42) ∧ decode 0b0100_0011_0100_0001 = .ok (.sneImm 3 0x41) ∧
    decode 0b0101_0001_0010_0000 = .ok (.seReg 1 2) ∧ decode 0b1001_0001_0010_0000 = .ok (.sneReg 1 2) ∧
    decode 0b1011_0010_0000_0001 = .ok (.jpV0 0x201) := by decide

theorem test_decode_immediates :
    decode 0b0110_1010_0010_1011 = .ok (.ldImm 0xA 0x2B) ∧ decode 0b0111_0000_0000_0010 = .ok (.addImm 0 0x02) ∧
    decode 0b1100_0011_0000_1111 = .ok (.rnd 3 0x0F) ∧ decode 0b1010_0010_1111_0000 = .ok (.ldI 0x2F0) := by decide

theorem test_decode_class8 :
    decode 0b1000_1010_1011_0000 = .ok (.ldReg 0xA 0xB) ∧ decode 0b1000_1010_1011_0001 = .ok (.orReg 0xA 0xB) ∧
    decode 0b1000_1010_1011_0010 = .ok (.andReg 0xA 0xB) ∧ decode 0b1000_1010_1011_0011 = .ok (.xorReg 0xA 0xB) ∧
    decode 0b1000_1010_1011_0100 = .ok (.addReg 0xA 0xB) ∧ decode 0b1000_1010_1011_0101 = .ok (.subReg 0xA 0xB) ∧
    decode 0b1000_1010_1011_0110 = .ok (.shr 0xA 0xB) ∧ decode 0b1000_1010_1011_0111 = .ok (.subn 0xA 0xB) ∧
    decode 0b1000_1010_1011_1110 = .ok (.shl 0xA 0xB) := by decide

theorem test_decode_draw_and_keys :
    decode 0b1101_0001_0010_1111 = .ok (.drw 1 2 15) ∧ decode 0b1110_0011_1001_1110 = .ok (.skp 3) ∧
    decode 0b1110_0011_1010_0001 = .ok (.sknp 3) := by decide

theorem test_decode_classF :
    decode 0b1111_0011_0000_0111 = .ok (.ldVxDt 3) ∧ decode 0b1111_0001_0000_1010 = .ok (.ldVxKey 1) ∧
    decode 0b1111_0011_0001_0101 = .ok (.ldDtVx 3) ∧ decode 0b1111_0100_0001_1000 = .ok (.ldStVx 4) ∧
    decode 0b1111_0010_0001_1110 = .ok (.addI 2) ∧ decode 0b1111_0000_0010_1001 = .ok (.ldFont 0) ∧
    decode 0b1111_0000_0011_0011 = .ok (.ldBcd 0) ∧ decode 0b1111_1111_0101_0101 = .ok (.storeRegs 15) ∧
    decode 0b1111_1111_0110_0101 = .ok (.loadRegs 15) := by decide

/-- V7, V9 to V11, V13, V14: words that are no instruction. -/
theorem test_decode_unknown_low :
    decode 0x0000 = .error (.unknownInstruction 0x0000) ∧
    decode 0x00E1 = .error (.unknownInstruction 0x00E1) ∧
    decode 0x01E0 = .error (.unknownInstruction 0x01E0) ∧
    decode 0x5121 = .error (.unknownInstruction 0x5121) := by decide
theorem test_decode_unknown_high :
    decode 0x8AB8 = .error (.unknownInstruction 0x8AB8) ∧
    decode 0x8ABF = .error (.unknownInstruction 0x8ABF) ∧
    decode 0x912F = .error (.unknownInstruction 0x912F) ∧
    decode 0xE3A2 = .error (.unknownInstruction 0xE3A2) ∧
    decode 0xF100 = .error (.unknownInstruction 0xF100) := by decide

/-- V7: every field is extracted whatever the class. -/
theorem test_decodeFields_of_unknown :
    decodeFields 0x0123 = { cls := .unknown, x := 1, y := 2, n := 3, kk := 0x23, nnn := 0x123 } := by decide

/-- R56, R89: bytes are joined high byte first, and one byte is no instruction. -/
theorem test_decodeBytes :
    decodeBytes [0x1A, 0xBC, 0x77] = .ok (.jp 0xABC, [0x77]) ∧ decodeBytes [0x1A] = .error .truncated := by decide

theorem test_decodeTableWord :
    decodeTableWord 16 0xD12F = some (.drw 1 2 15) ∧ decodeTableWord 16 0x5121 = none ∧
    decodeTableWord 32 0xD12F = none := by decide

/-! ## One step of each instruction -/

/-- These operations, then `Step` for ever. -/
def thenSteps (ops : List Op) : Schedule := { soon := ops, later := .repeating [] }

/-- Whether `check` holds of the state after one step from reset, with `op` to be fetched and the changes of `setup`. -/
def after (op : Word) (setup : State → State) (check : State → Bool) : Bool :=
  match step (setup (State.reset.withFetchWord 16 op.toNat)) with
  | .next t => check t
  | .fault _ => false
  | .refused _ => false

/-- Set V0, V1 and VF. -/
def regs01F (a b f : Byte) (s : State) : State := ((s.setReg 0 a).setReg 1 b).setReg 15 f

/-- V0, V1 and VF hold these values, and the pc has moved on by 2. -/
def shows01F (a b f : Byte) (t : State) : Bool := t.reg 0 == a && t.reg 1 == b && t.reg 15 == f && t.pc == 0x202

/-- The status is the record of this error at 0x200 with the opcode `op`, and the pc has not moved. -/
def raised (e : FatalError) (op : Word) (t : State) : Bool :=
  t.fault == some { error := e, pc := 0x200, op := some op } && t.pc == 0x200

/-- DK1. -/
theorem test_cls : after 0x00E0 (fun s => { s.setReg 15 0x12 with fb := s.fb.flip (31, 63) })
    (fun t => !t.fb[31][63] && t.reg 15 == 0x12 && t.result.redraw && t.pc == 0x202) = true := by decide

/-- CF5, CF6. -/
theorem test_ret : after 0x00EE (fun s => { s with sp := 1, stack := s.stack.set 0 0x202 })
    (fun t => t.pc == 0x202 && t.sp == 0 && t.stack[0] == 0x202) = true := by decide
theorem test_ret_empty : after 0x00EE id (raised (.stackUnderflow 0) 0x00EE) = true := by decide

/-- CF1. -/
theorem test_jp : after 0x1228 id (fun t => t.pc == 0x228) = true := by decide

/-- CF3, CF4. -/
theorem test_call : after 0x2300 id (fun t => t.pc == 0x300 && t.sp == 1 && t.stack[0] == 0x202) = true := by decide
theorem test_call_full : after 0x2300 (fun s => { s with sp := 16 })
    (fun t => raised (.stackOverflow 16) 0x2300 t && t.sp == 16 && t.stack[0] == 0) = true := by decide

/-- CF10. -/
theorem test_seImm : after 0x3342 (fun s => s.setReg 3 0x42) (fun t => t.pc == 0x204) = true ∧
    after 0x3341 (fun s => s.setReg 3 0x42) (fun t => t.pc == 0x202) = true := by decide

/-- CF11. -/
theorem test_sneImm : after 0x4341 (fun s => s.setReg 3 0x42) (fun t => t.pc == 0x204) = true ∧
    after 0x4342 (fun s => s.setReg 3 0x42) (fun t => t.pc == 0x202) = true := by decide

/-- CF12, CF13. -/
theorem test_seReg :
    after 0x5120 (fun s => (s.setReg 1 7).setReg 2 7) (fun t => t.pc == 0x204) = true ∧
    after 0x5120 (fun s => (s.setReg 1 7).setReg 2 8) (fun t => t.pc == 0x202) = true := by decide

/-- CF15, CF16. -/
theorem test_sneReg :
    after 0x9120 (fun s => (s.setReg 1 7).setReg 2 8) (fun t => t.pc == 0x204) = true ∧
    after 0x9110 (fun s => s.setReg 1 7) (fun t => t.pc == 0x202) = true := by decide

/-- W1. -/
theorem test_ldImm : after 0x6A2B id (fun t => t.reg 0xA == 0x2B && t.pc == 0x202) = true := by decide

/-- W2, A28. -/
theorem test_addImm : after 0x7002 (regs01F 0xFF 0 0x55) (shows01F 0x01 0 0x55) = true := by decide
theorem test_addImm_vf : after 0x7F01 (regs01F 0 0 0xFF) (shows01F 0 0 0x00) = true := by decide

/-- A1 to A4. -/
theorem test_ldReg : after 0x8010 (regs01F 0x00 0x33 0) (shows01F 0x33 0x33 0) = true := by decide
theorem test_orReg : after 0x8011 (regs01F 0xF0 0x0C 0x77) (shows01F 0xFC 0x0C 0x77) = true := by decide
theorem test_andReg : after 0x8012 (regs01F 0xF0 0x3C 0x77) (shows01F 0x30 0x3C 0x77) = true := by decide
theorem test_xorReg : after 0x8013 (regs01F 0xF0 0x3C 0x77) (shows01F 0xCC 0x3C 0x77) = true := by decide

/-- A21 (flag first, result second), A25 (operands read before the flag is written). -/
theorem test_addReg_into_vf : after 0x8F14 (regs01F 0 0xFF 0x01) (shows01F 0 0xFF 0x00) = true := by decide
theorem test_addReg_from_vf : after 0x80F4 (regs01F 0x10 0 0x01) (shows01F 0x11 0 0x00) = true := by decide

/-- A10, A9. -/
theorem test_subReg_borrow : after 0x8015 (regs01F 0x00 0xFF 0x77) (shows01F 0x01 0xFF 0) = true := by decide
theorem test_subReg_equal : after 0x8015 (regs01F 0x05 0x05 0x77) (shows01F 0x00 0x05 1) = true := by decide

/-- A19, A20: the parameter SHIFT_SRC. -/
theorem test_shr_vx : after 0x8016 (regs01F 0x00 0x03 0x77) (shows01F 0x00 0x03 0) = true := by decide
theorem test_shr_vy : after 0x8016
    (fun s => { regs01F 0x00 0x03 0x77 s with params := { s.params with shiftSrc := .vy } })
    (shows01F 0x01 0x03 1) = true := by decide

/-- A12, A13. -/
theorem test_subn_borrow : after 0x8017 (regs01F 0x02 0x01 0x77) (shows01F 0xFF 0x01 0) = true := by decide
theorem test_subn_equal : after 0x8017 (regs01F 0x05 0x05 0x77) (shows01F 0x00 0x05 1) = true := by decide

/-- A17, A24. -/
theorem test_shl : after 0x800E (regs01F 0x81 0 0x77) (shows01F 0x02 0 1) = true := by decide
theorem test_shl_vf : after 0x8FFE (regs01F 0 0 0x81) (shows01F 0 0 0x02) = true := by decide

/-- M1. -/
theorem test_ldI : after 0xA2F0 id (fun t => t.I == 0x2F0 && t.pc == 0x202) = true := by decide

/-- CF8. -/
theorem test_jpV0 : after 0xBFFF (fun s => s.setReg 0 0xFF) (fun t => t.pc == 0x10FE) = true := by decide

/-- A31: any draw under an empty mask. -/
theorem test_rnd : ∃ t, exec (.rnd 3 0x00) State.reset = .next t ∧ t.reg 3 = 0 ∧ t.pc = 0x202 ∧ t.draws = 1 :=
  ⟨_, rfl, (setReg_reg_same State.reset 3 _).trans BitVec.and_zero, rfl, rfl⟩

/-- DK3 (wrap-around on both axes), DK10 (x = F read before VF is written). -/
theorem test_drw_wraps : after 0xD012
    (fun s => { regs01F 0x3E 0x1F 0x77 s with I := 0x300, mem := s.mem.writeBytes 0x300 [0xFF, 0xFF] })
    (fun t => t.fb[31][62] && t.fb[31][0] && t.fb[31][5] && !t.fb[31][6] && !t.fb[30][62] && t.fb[0][63] && t.fb[0][5] &&
      !t.fb[1][0] && t.reg 15 == 0 && t.result.redraw) = true := by decide
theorem test_drw_vf : after 0xDF11
    (fun s => { regs01F 0 0 5 s with I := 0x300, mem := s.mem.writeBytes 0x300 [0x80] })
    (fun t => t.fb[0][5] && !t.fb[0][0] && t.reg 15 == 0 && t.pc == 0x202) = true := by decide

/-- DK11, DK13. -/
theorem test_skp : after 0xE19E (fun s => { s.setReg 1 5 with key := s.key.set 5 true }) (fun t => t.pc == 0x204) = true ∧
    after 0xE19E (fun s => s.setReg 1 5) (fun t => t.pc == 0x202) = true := by decide
theorem test_skp_no_key : after 0xE19E (fun s => s.setReg 1 0x10) (raised (.outOfBounds 0x10 1) 0xE19E) = true := by
  decide

/-- DK12. -/
theorem test_sknp : after 0xE1A1 (fun s => s.setReg 1 5) (fun t => t.pc == 0x204) = true ∧
    after 0xE1A1 (fun s => { s.setReg 1 5 with key := s.key.set 5 true }) (fun t => t.pc == 0x202) = true := by decide

/-- DK14 to DK16. -/
theorem test_ldVxDt : after 0xF307 (fun s => { s with DT := 0x3C })
    (fun t => t.reg 3 == 0x3C && t.result.timers && !t.result.redraw) = true := by decide
theorem test_ldDtVx : after 0xF315 (fun s => s.setReg 3 0x3C) (fun t => t.DT == 0x3C && t.ST == 0) = true := by decide
theorem test_ldStVx : after 0xF418 (fun s => s.setReg 4 0x02) (fun t => t.ST == 0x02 && t.DT == 0) = true := by decide

/-- DK19, DK21: a held key does not end the wait. -/
theorem test_ldVxKey : after 0xF50A (fun s => { s with key := s.key.set 2 true })
    (fun t => t.awaitingKey == some 5 && t.pc == 0x200 && t.result.status == .ok) = true := by decide

/-- M3, M4. -/
theorem test_addI : after 0xF21E (fun s => { s.setReg 2 1 with I := 0x0FFF })
    (fun t => t.I == 0x1000 && t.reg 15 == 0) = true := by decide
theorem test_addI_wraps : after 0xF21E (fun s => { s.setReg 2 1 with I := 0xFFFF })
    (fun t => t.I == 0x0000 && t.reg 15 == 0) = true := by decide

/-- M6, M7. -/
theorem test_ldFont : after 0xF029 (fun s => s.setReg 0 0x0F) (fun t => t.I == 0x04B) = true ∧
    after 0xF029 (fun s => s.setReg 0 0xFF) (fun t => t.I == 0x4FB) = true := by decide

/-- M8, M13. -/
theorem test_ldBcd : after 0xF033 (fun s => { s.setReg 0 0xFE with I := 0x300 })
    (fun t => t.mem.readBytes 0x2FF 5 == [0, 2, 5, 4, 0] && t.I == 0x300) = true := by decide
theorem test_ldBcd_outside : after 0xF033 (fun s => { s.setReg 0 0xFE with I := 0xFFE })
    (fun t => raised (.outOfBounds 0xFFE 3) 0xF033 t && t.mem.readBytes 0xFFE 2 == [0, 0]) = true := by decide

/-- M14, M16. -/
theorem test_storeRegs : after 0xF255 (fun s => { (regs01F 1 2 0 s).setReg 2 3 with I := 0x400 })
    (fun t => t.mem.readBytes 0x400 4 == [1, 2, 3, 0] && t.I == 0x400) = true := by decide
theorem test_storeRegs_outside : after 0xFF55 (fun s => { regs01F 1 2 3 s with I := 0xFF1 })
    (fun t => raised (.outOfBounds 0xFF1 16) 0xFF55 t && t.mem.readBytes 0xFF1 2 == [0, 0]) = true := by decide

/-- M18, M20. -/
theorem test_loadRegs : after 0xF265
    (fun s => { s.setReg 3 0x99 with I := 0x300, mem := s.mem.writeBytes 0x300 [2, 5, 4, 7] })
    (fun t => t.reg 0 == 2 && t.reg 1 == 5 && t.reg 2 == 4 && t.reg 3 == 0x99 && t.I == 0x300) = true := by decide
theorem test_loadRegs_outside : after 0xF065 (fun s => { s.setReg 0 0x99 with I := 0x1000 })
    (fun t => raised (.outOfBounds 0x1000 1) 0xF065 t && t.reg 0 == 0x99) = true := by decide

/-! ## Steps that execute nothing, and the other operations -/

/-- V15. -/
theorem test_step_unknown : after 0x5121 id
    (fun t => t.result.status == .unknown 0x5121 && t.pc == 0x202 && t.cur == 0x5121) = true := by decide

/-- V4: no opcode in the record, and `cur` keeps its value. -/
theorem test_step_outside : after 0x00E0 (fun s => { s with pc := 0x1000, cur := 0x1234 })
    (fun t => t.fault == some { error := .outOfBounds 0x1000 2, pc := 0x1000, op := none } && t.cur == 0x1234) = true := by
  decide

/-- DK19: a step during a wait. -/
theorem test_step_waiting : after 0x6A2B (fun s => { s with awaitingKey := some 5 })
    (fun t => t.result.status == .waiting && t.pc == 0x200 && t.reg 0xA == 0) = true := by decide

/-- LD3: the first step of an empty program. -/
theorem test_step_from_reset : (match step State.reset with
    | .next t => t.result.status == .unknown 0x0000 && t.pc == 0x202
    | .fault _ => false
    | .refused _ => false) = true := by decide

/-- DK17, DK18 as the next operation. -/
theorem test_schedule : after 0x6A2B (fun s => { s with DT := 0, ST := 5, schedule := thenSteps [.tickTimers] })
    (fun t => t.DT == 0 && t.ST == 4 && t.pc == 0x200 && t.schedule == thenSteps []) = true := by decide

/-- R114: ticks that never end, between steps. -/
theorem test_schedule_repeats :
    let sch : Schedule := { soon := [], later := .repeating [.tickTimers, .step] }
    sch.take.1 = .tickTimers ∧ sch.take.2.take.1 = .step ∧ sch.take.2.take.2 = sch := by decide

/-- A word placed for the next step is run before what was scheduled. -/
theorem test_withFetchWord : after 0x6A2B id (fun t => t.schedule == thenSteps []) = true ∧
    (let s : State := { State.reset with schedule := thenSteps [.tickTimers], awaitingKey := some 3, pc := 0xFFF }
     (s.withFetchWord 16 0x6A2B).schedule = thenSteps [.step, .tickTimers]) := by decide

/-- DK19, DK20. -/
theorem test_setKey_press : after 0xF50A
    (fun s => { s with awaitingKey := some 5, schedule := thenSteps [.setKey 0xB true] })
    (fun t => t.reg 5 == 0x0B && t.pc == 0x202 && t.awaitingKey == none && t.key[0xB]) = true := by decide
theorem test_setKey_release : after 0xF50A
    (fun s => { s with awaitingKey := some 5, key := s.key.set 3 true, schedule := thenSteps [.setKey 3 false] })
    (fun t => t.pc == 0x200 && t.awaitingKey == some 5 && !t.key[3]) = true := by decide

/-- LD5 and P8's program. -/
theorem test_load : after 0x6A2B
    (fun s => { s with pc := 0x300, schedule := thenSteps [.load [0x22, 0x04, 0x12, 0x02, 0x00, 0xEE]] })
    (fun t => t.mem.readBytes 0 5 == [0xF0, 0x90, 0x90, 0x90, 0xF0] && t.mem.read 0x50 == 0 && t.pc == 0x200 &&
      t.mem.readBytes 0x200 7 == [0x22, 0x04, 0x12, 0x02, 0x00, 0xEE, 0]) = true := by decide

/-- R36: the tone sounds while ST > 0. -/
theorem test_tone : ({ State.reset with ST := 1 } : State).tone = true ∧ State.reset.tone = false := by decide

/-- R230, R237: the codes. -/
theorem test_codes :
    (Status.faultStatus ⟨.outOfBounds 0xFFF 2, 0xFFF, none⟩).code = 1 ∧
    (Status.faultStatus ⟨.stackOverflow 16, 0x200, some 0x2200⟩).code = 2 ∧
    (Status.faultStatus ⟨.stackUnderflow 0, 0x200, some 0x00EE⟩).code = 3 ∧ (Status.unknown 0).code = 4 ∧
    (Status.romTooLarge 3585).code = 5 ∧ Status.waiting.code = 6 ∧ Status.ok.code = 0 := by decide

/-! ## Witnesses: for each statement with hypotheses, values that meet them, clause by clause and at the bounds.
Statements without hypotheses (and those whose clauses a test above already meets) need none. -/

/-- Reset with `I` at an address and V0, V1, VF set. -/
def atI (a : Word) : State := { regs01F 0xFE 0x33 0x05 State.reset with I := a }

/-- A canonical memory with two cells, one of them the last byte. -/
def twoCells : Memory := [(0x300, 0x80), (0xFFF, 0x01)]

/-- A state in the middle of a wait. -/
def waiting : State := { State.reset with awaitingKey := some 5, pc := 0xFFE }

/-- The record of a stack overflow. -/
def overflow : FaultRecord := { error := .stackOverflow 16, pc := 0x200, op := some 0x2200 }

/-- A state after a fatal error, as program P5 of 95 leaves it. -/
def faulted : State := { State.reset with cur := 0x2200, sp := 16, stack := Vector.replicate 16 0x202, fault := some overflow }

theorem witness_DecodeOfEncode : (Instr.drw 15 15 15).wellFormed = true ∧ (Instr.drw 0 0 0).wellFormed = true := by decide

theorem witness_EncodeOfDecode : decode 0xDFFF = .ok (.drw 15 15 15) := by decide

theorem witness_DecoderFollows_hit : ⟨.shl, 0xF00F, 0x800E⟩ ∈ opcodeMap ∧ (⟨.shl, 0xF00F, 0x800E⟩ : OpcodeRow).hits 0x8ABE = true := by
  decide
theorem witness_DecoderFollows_no_hit : ∀ r ∈ opcodeMap, r.hits 0x5121 = false := by decide

/-- One word for each clause of UnknownWords. -/
theorem witness_UnknownWords :
    (fieldC 0x0123 = 0x0 ∧ (0x0123 : Word) ≠ 0x00E0 ∧ (0x0123 : Word) ≠ 0x00EE) ∧
    (fieldC 0x912F = 0x9 ∧ fieldN 0x912F ≠ 0) ∧ (fieldC 0x8ABF = 0x8 ∧ fieldN 0x8ABF = 0xF) ∧
    (fieldC 0xE3A2 = 0xE ∧ fieldKK 0xE3A2 ∉ ([0x9E, 0xA1] : List Byte)) ∧ (fieldC 0xF100 = 0xF ∧ fieldKK 0xF100 = 0) := by
  decide

/-- An instruction at the last address that can be fetched. -/
theorem witness_StepRuns :
    let s := ({ State.reset with pc := 0xFFE } : State).withFetchWord 16 0xD12F
    s.schedule.take = (.step, thenSteps []) ∧ s.fault = none ∧ s.awaitingKey = none ∧ s.pc.toNat ≤ 0xFFE ∧ s.pc = 0xFFE ∧
    decodeBytes [s.mem.read s.pc.toNat, s.mem.read (s.pc.toNat + 1)] = .ok (.drw 1 2 15, []) := by decide

theorem witness_StepSkips :
    State.reset.schedule.take = (.step, thenSteps []) ∧ State.reset.fault = none ∧ State.reset.awaitingKey = none ∧
    fetch State.reset.mem State.reset.pc = .ok 0x0000 ∧ decode 0x0000 = .error (.unknownInstruction 0x0000) := by decide

/-- V2 and V3: the two sides of the fetch bound. -/
theorem witness_Fetch : fetch twoCells 0xFFE = .ok 0x0001 ∧ fetch twoCells 0xFFF = .error (.outOfBounds 0xFFF 2) := by decide

theorem witness_StepFaults :
    let s : State := { State.reset with pc := 0xFFF }
    s.schedule.take = (.step, thenSteps []) ∧ s.fault = none ∧ s.awaitingKey = none ∧ 0xFFF ≤ s.pc.toNat := by decide

theorem witness_StepIsInert :
    faulted.fault = some overflow ∧ waiting.fault = none ∧ waiting.awaitingKey = some 5 := by decide

theorem witness_StepPerforms :
    ({ State.reset with schedule := thenSteps [.tickTimers, .step] } : State).schedule.take = (.tickTimers, thenSteps [.step]) := by
  decide

/-- The last access that fits, instruction by instruction: these complete. -/
theorem witness_InstructionsComplete :
    faultOf .cls State.reset = none ∧ State.reset.pc.toNat ≤ 0xFFE ∧
    faultOf (.call 0x300) { State.reset with sp := 15 } = none ∧ faultOf .ret { State.reset with sp := 1 } = none ∧
    faultOf (.drw 0 1 15) (atI 0xFF1) = none ∧ faultOf (.drw 0 1 0) (atI 0xFFFF) = none ∧
    faultOf (.ldBcd 0) (atI 0xFFD) = none ∧ faultOf (.storeRegs 15) (atI 0xFF0) = none ∧
    faultOf (.loadRegs 0) (atI 0xFFF) = none ∧ faultOf (.skp 0) (State.reset.setReg 0 0xF) = none := by decide

/-- The first access that does not: these raise, one for each kind of error. -/
theorem witness_FaultingInstructions :
    faultOf (.call 0x300) { State.reset with sp := 16 } = some (.stackOverflow 16) ∧
    faultOf .ret State.reset = some (.stackUnderflow 0) ∧
    faultOf (.drw 0 1 15) (atI 0xFF2) = some (.outOfBounds 0xFF2 15) ∧
    faultOf (.ldBcd 0) (atI 0xFFE) = some (.outOfBounds 0xFFE 3) ∧
    faultOf (.storeRegs 15) (atI 0xFF1) = some (.outOfBounds 0xFF1 16) ∧
    faultOf (.loadRegs 0) (atI 0x1000) = some (.outOfBounds 0x1000 1) ∧
    faultOf (.sknp 0) (State.reset.setReg 0 0x10) = some (.outOfBounds 0x10 1) := by decide

/-- Each piece of state is written by an instruction that may. -/
theorem witness_Writers_registers : ∃ t, exec (.subReg 0 1) (atI 0) = .next t ∧ t.reg 0 ≠ (atI 0).reg 0 ∧
    t.reg 15 ≠ (atI 0).reg 15 ∧ writtenRegs (.subReg 0 1) = [15, 0] := ⟨_, rfl, by decide, by decide, rfl⟩
theorem witness_Writers_register_block : writtenRegs (.loadRegs 2) = [0, 1, 2] ∧ 15 ∈ writtenRegs (.loadRegs 15) := by
  decide
theorem witness_Writers_fault : ∃ t, exec .ret State.reset = .next t ∧ t.fault ≠ State.reset.fault :=
  ⟨_, rfl, by decide⟩
theorem witness_Writers_draws : ∃ t, exec (.rnd 3 0x0F) State.reset = .next t ∧ t.draws ≠ State.reset.draws :=
  ⟨_, rfl, by decide⟩
theorem witness_Writers_memory : ∃ t, exec (.ldBcd 0) (atI 0x300) = .next t ∧ t.mem ≠ (atI 0x300).mem :=
  ⟨_, exec_ldBcd_ok (atI 0x300) 0 (by decide), by decide⟩
theorem witness_Writers_stack : ∃ t, exec (.call 0x300) State.reset = .next t ∧ t.stack ≠ State.reset.stack ∧
    t.sp ≠ State.reset.sp := ⟨_, rfl, by decide, by decide⟩
theorem witness_Writers_index : ∃ t, exec (.ldFont 1) (atI 0x300) = .next t ∧ t.I ≠ (atI 0x300).I := ⟨_, rfl, by decide⟩
theorem witness_Writers_timers : (∃ t, exec (.ldDtVx 0) (atI 0) = .next t ∧ t.DT ≠ (atI 0).DT) ∧
    ∃ t, exec (.ldStVx 0) (atI 0) = .next t ∧ t.ST ≠ (atI 0).ST := ⟨⟨_, rfl, by decide⟩, ⟨_, rfl, by decide⟩⟩
theorem witness_Writers_wait : ∃ t, exec (.ldVxKey 5) State.reset = .next t ∧ t.awaitingKey ≠ State.reset.awaitingKey :=
  ⟨_, rfl, by decide⟩
/-- DK5: a pixel is cleared. -/
theorem witness_Writers_framebuffer :
    let s : State := { State.reset with fb := State.reset.fb.flip (0, 0) }
    ∃ t, exec .cls s = .next t ∧ t.fb ≠ s.fb :=
  ⟨_, rfl, fun h => absurd (congrArg (fun fb : Framebuffer => fb[0][0]) h) (by decide)⟩

/-- A6: VF changes as a flag. -/
theorem witness_VfIsWritten : ∃ t, exec (.addReg 0 1) (regs01F 0x80 0x80 0 State.reset) = .next t ∧
    t.reg 15 ≠ (regs01F 0x80 0x80 0 State.reset).reg 15 := ⟨_, rfl, by decide⟩

theorem witness_NoInstructionReads : (∃ t, faultOf .cls State.reset = none ∧ exec .cls State.reset = .next t) ∧
    ∃ t, faultOf (.ldStVx 4) State.reset = none ∧ exec (.ldStVx 4) State.reset = .next t :=
  ⟨⟨_, rfl, rfl⟩, ⟨_, rfl, rfl⟩⟩

theorem witness_CallPushes : ({ State.reset with sp := 15 } : State).sp.val < 16 ∧ faulted.sp.val = 16 := by decide

theorem witness_ReturnPops : 0 < ({ State.reset with sp := 1 } : State).sp.val ∧ State.reset.sp.val = 0 := by decide

/-- CF8: the highest target, which cannot be fetched. -/
theorem witness_JumpWithOffset : (targetV0 0xFFF (State.reset.setReg 0 0xFF)).toNat = 0x10FE := by decide

theorem witness_SeventeenthNestedCall :
    (List.replicate 16 (0x200 : Addr)).length = 16 ∧ State.reset.sp.val = 0 := by decide

/-- The state after the call is itself one from which the return starts. -/
theorem witness_ReturnUndoesTheCall : State.reset.sp.val < 16 ∧ ∃ t, exec (.call 0x200) State.reset = .next t ∧
    ∃ u : State, u.stack = t.stack ∧ u.sp = t.sp := ⟨by decide, _, rfl, _, rfl, rfl⟩

/-- The flag is raised (W3a, W4b, A14, A17) and lowered (W3b, W4a, A15, A18). -/
theorem witness_flags :
    (0xFF : Byte).toNat + (0x01 : Byte).toNat > 0xFF ∧ ¬ (0x01 : Byte).toNat + (0x01 : Byte).toNat > 0xFF ∧
    (0x02 : Byte).toNat ≥ (0x01 : Byte).toNat ∧ ¬ (0x01 : Byte).toNat ≥ (0x02 : Byte).toNat ∧
    shifted (regs01F 0x05 0x02 0 State.reset) 0 1 % 2 = 1 ∧ ¬ shifted (regs01F 0x80 0x01 0 State.reset) 0 1 % 2 = 1 ∧
    shifted (regs01F 0x81 0x02 0 State.reset) 0 1 ≥ 128 ∧ ¬ shifted (regs01F 0x7F 0x81 0 State.reset) 0 1 ≥ 128 := by
  decide

/-- M12 and M13. -/
theorem witness_BcdStores : (atI 0xFFD).mem.wf ∧ (atI 0xFFD).I.toNat + 2 ≤ 0xFFF ∧ (atI 0xFFE).I.toNat + 2 > 0xFFF := by
  decide

/-- M15, M16, M17: the two sides of the bound, for the longest and the shortest block. -/
theorem witness_StoreAndLoadRegisters :
    let s : State := { atI 0xFF0 with mem := twoCells }
    s.mem.wf ∧ s.I.toNat + (15 : Reg).val ≤ 0xFFF ∧ (atI 0xFF1).I.toNat + (15 : Reg).val > 0xFFF ∧
    (atI 0xFFF).I.toNat + (0 : Reg).val ≤ 0xFFF ∧ (atI 0xFFF).I.toNat + (1 : Reg).val > 0xFFF := by decide

theorem witness_LoadUndoesStore : (atI 0xFFE).mem.wf ∧ (atI 0xFFE).I.toNat + (1 : Reg).val ≤ 0xFFF ∧
    ∃ t, exec (.storeRegs 1) (atI 0xFFE) = .next t ∧ ∃ u : State, u.mem = t.mem ∧ u.I = t.I :=
  ⟨by decide, by decide, _, exec_storeRegs_ok (atI 0xFFE) 1 (by decide), _, rfl, rfl⟩

/-- Both instructions at the end of the memory, and with the shortest block; the last pc that can be fetched. -/
theorem witness_NextFetchSees : (atI 0xFFD).mem.wf ∧ (atI 0xFFD).I.toNat + 2 ≤ 0xFFF ∧
    (atI 0xFF0).I.toNat + (15 : Reg).val ≤ 0xFFF ∧ (atI 0xFFF).I.toNat + (0 : Reg).val ≤ 0xFFF ∧
    (0xFFE : Word).toNat ≤ 0xFFE := by decide

/-- P7, and a fetch across the lower edge of the block: its first byte is the old one. -/
theorem test_fetch_after_store : after 0xF155 (fun s => { regs01F 0x12 0x08 0 s with I := 0x208 })
    (fun t => decide (fetch t.mem 0x208 = .ok 0x1208) && decide (fetch t.mem 0x207 = .ok 0x0012)) = true := by decide

theorem witness_CanonicalMemories : twoCells.wf ∧ (twoCells.write 0x301 0x00).wf ∧
    ∀ a, twoCells.read a = (twoCells.write 0x301 0x00).read a :=
  ⟨by decide, by decide, fun a => by rw [show twoCells.write 0x301 0x00 = twoCells from by decide]⟩

/-- DK9 and DK7 for the bounds; DK5 for a hit, DK4 for none. -/
theorem witness_DrawFlips :
    (atI 0xFF1).I.toNat + 15 - 1 ≤ 0xFFF ∧
    (let s : State := { State.reset with I := 0x300, mem := twoCells, fb := State.reset.fb.flip (0, 0) }
     s.fb[0][0] = true ∧ covers s 0 1 1 0 0 = true) ∧
    (let s : State := { State.reset with I := 0x300, mem := twoCells }
     covers s 0 1 1 0 0 = true ∧ covers s 0 1 1 0 1 = false ∧ covers s 0 1 1 1 0 = false) := by decide
theorem witness_DrawFlips_no_hit :
    ¬ ∃ (r : Fin 32) (c : Fin 64), State.reset.fb[r][c] = true ∧ covers State.reset 0 1 5 r c = true := by
  rintro ⟨r, c, h, -⟩
  exact absurd ((get_clear (r, c)).symm.trans h) (by decide)

theorem witness_DrawingTwice : ∃ t, exec (.drw 0 1 5) State.reset = .next t ∧ ∃ u : State, u.fb = t.fb ∧
    u.mem = State.reset.mem ∧ u.I = State.reset.I ∧ u.reg 0 = State.reset.reg 0 ∧ u.reg 1 = State.reset.reg 1 :=
  ⟨_, exec_drw_ok State.reset 0 1 5 (by decide), { State.reset with fb := _ }, rfl, rfl, rfl, rfl, rfl⟩

theorem witness_KeySkips : ((State.reset.setReg 1 0xF).reg 1).toNat ≤ 0xF ∧ ((State.reset.setReg 1 0x10).reg 1).toNat > 0xF := by
  decide

theorem witness_SetKey : waiting.awaitingKey = some 5 ∧ State.reset.awaitingKey = none := by decide

theorem witness_WaitLasts : waiting.fault = none ∧ waiting.awaitingKey = some 5 ∧
    ∀ op ∈ ([.step, .tickTimers, .setKey 3 false] : List Op), op = .step ∨ op = .tickTimers ∨ ∃ k, op = .setKey k false := by
  refine ⟨by decide, by decide, fun op h => ?_⟩
  rcases List.mem_cons.mp h with rfl | h
  · exact .inl rfl
  · rcases List.mem_cons.mp h with rfl | h
    · exact .inr (.inl rfl)
    · exact .inr (.inr ⟨3, List.mem_singleton.mp h⟩)

theorem witness_FaultLasts : faulted.fault = some overflow ∧ faulted.awaitingKey = none ∧
    ∀ op ∈ ([.step, .tickTimers, .setKey 3 true] : List Op), ∀ rom, op ≠ .load rom := by
  refine ⟨by decide, by decide, fun op h rom e => ?_⟩
  subst e
  simp at h

/-- LD1 and LD2: the two sides of the bound. -/
theorem witness_Load_sizes : (List.replicate 3584 (0xAB : Byte)).length ≤ 3584 ∧
    2 ≤ (List.replicate 3584 (0xAB : Byte)).length ∧ (List.replicate 3585 (0xAB : Byte)).length > 3584 := by
  rw [List.length_replicate, List.length_replicate]
  decide

theorem witness_Started : State.reset.Started :=
  ⟨[], defaultParams, thenSteps [], 0, by decide, by rw [load_ok _ (by decide), show loadedMemory _ [] = [] by decide]; rfl⟩

/-- The invariant holds in the middle of a wait and after a fatal error. -/
theorem witness_Inv_waiting : waiting.Inv :=
  ⟨by decide, by decide, by decide, fun _ => by decide, nofun⟩
theorem witness_Inv_faulted : faulted.Inv := by
  refine ⟨by decide, by decide, by decide, fun h => absurd rfl h, fun f h => ?_⟩
  cases h
  exact ⟨by decide, rfl, nofun, fun op h => by cases h; decide⟩

theorem witness_Reachable : State.reset.Reachable := .start witness_Started

end Sys2Proof.Tests
end

section
/-! PROOFS. The field extractions against the masks and shifts of spec/30_encoding.md R76. Both sides are read as
numbers: a field by its lemma of Laws, a masked and shifted word by the lemmas below. -/

namespace Sys2Proof

/-- A mask whose digits from bit `j` up are `k` ones selects the `k` bits of the word from bit `j` up. -/
theorem toNat_and_ushiftRight (op mask : Word) (j k : Nat) (hmask : mask.toNat >>> j = 2 ^ k - 1) :
    ((op &&& mask) >>> j).toNat = op.toNat / 2 ^ j % 2 ^ k := by
  rw [BitVec.toNat_ushiftRight, BitVec.toNat_and, Nat.shiftRight_and_distrib, hmask, Nat.and_two_pow_sub_one_eq_mod,
    Nat.shiftRight_eq_div_pow]

/-- A mask of `k` ones selects the low `k` bits of the word. -/
theorem toNat_and_low (op mask : Word) (k : Nat) (hmask : mask.toNat = 2 ^ k - 1) :
    (op &&& mask).toNat = op.toNat % 2 ^ k := by
  rw [BitVec.toNat_and, hmask, Nat.and_two_pow_sub_one_eq_mod]

/-- Settles O1: each field and its masked and shifted word are the same digits of the word's number. -/
theorem fieldsAreMaskedAndShifted : Obligations.FieldsAreMaskedAndShifted := by
  intro op
  refine ⟨?c, ?x, ?y, ?n, ?kk, ?nnn⟩
  case c =>
    have hop := op.isLt
    rw [fieldC_toNat, toNat_and_ushiftRight op 0xF000 12 4 (by decide)]
    omega
  case x => exact (fieldX_val op).trans (toNat_and_ushiftRight op 0x0F00 8 4 (by decide)).symm
  case y => exact (fieldY_val op).trans (toNat_and_ushiftRight op 0x00F0 4 4 (by decide)).symm
  case n => exact (fieldN_eq op).trans (toNat_and_low op 0x000F 4 (by decide)).symm
  case kk => exact (fieldKK_toNat op).trans (toNat_and_low op 0x00FF 8 (by decide)).symm
  case nnn => exact (fieldNNN_toNat op).trans (toNat_and_low op 0x0FFF 12 (by decide)).symm

end Sys2Proof
end

section
/-! PROOFS. Control flow (spec/41_control_flow.md R126 and R128 to R132). Each statement is an encoding, read off the row
of the opcode map, and an end: a jump or a skip, whose effect is said once for all the instructions that end so. -/

namespace Sys2Proof.Machine

/-! ## Encodings -/

/-- An instruction with the fields of the word is coded by the row of its class, if the row says what the class's fixed
digits are. -/
theorem coded_of_row {c : Cls} {mask pattern : Word} {i : Word → Instr} (hc : c ≠ .unknown)
    (hi : ∀ op, ({ decodeFields op with cls := c } : Decoded).instr? = some (i op))
    (hrow : ∀ op, op &&& mask = pattern ↔ patternOf op c) : Coded mask pattern i :=
  fun op => (decode_iff_pattern hc hi op).trans (hrow op).symm

/-! ## Jumps and skips -/

/-- Setting `pc` and the result leaves everything else. -/
theorem frame_pc_result (s : State) (pc : Word) (result : Result) :
    Frame s { s with pc := pc, result := result } [] [] :=
  frame_of_fields (fun _ _ => rfl) (.inr rfl) (.inr rfl) (.inr rfl) (.inr rfl) (.inr rfl) (.inr rfl) (.inr rfl)
    (.inr rfl) (.inr rfl) (.inr rfl) (.inr rfl) rfl rfl rfl

/-- A jump goes to its target and leaves everything else. -/
theorem jumpTo_next (target : Word) (s : State) :
    ∃ t, jumpTo target s = .next t ∧ t.pc = target ∧ Frame s t [] [] :=
  ⟨_, rfl, rfl, frame_pc_result s target _⟩

/-- An instruction that ends as a skip has the shape of the skips, for the condition its test decides. -/
theorem skipsWhen_of_exec {i : Instr} {s : State} {taken : Bool} {cond : Prop} (hexec : exec i s = skipIf taken s)
    (htaken : taken = true ↔ cond) : SkipsWhen i s cond := by
  refine ⟨_, hexec, fun hcond => ?taken, fun hcond => ?passed, frame_pc_result s _ _, fetch_error⟩
  case taken => simp [htaken.mpr hcond]
  case passed => simp [mt htaken.mp hcond]

/-! ## The obligations -/

/-- Settles O20: the 16-bit target is the 12-bit number itself, so at 0xFFF the fetch lemma applies. -/
theorem jumpSetsPcToItsTarget : Obligations.JumpSetsPcToItsTarget := by
  refine ⟨coded_of_row (c := .jp) nofun (fun _ => rfl) (mask_c · 0x1), fun nnn s => ?_⟩
  obtain ⟨t, hjump, hpc, hframe⟩ := jumpTo_next (target nnn) s
  have hsum : t.pc.toNat = nnn.toNat := by rw [hpc, target_toNat]
  refine ⟨t, hjump, hsum, hframe, ?_⟩
  rintro rfl
  have hend : t.pc.toNat = 0xFFF := hsum
  exact hend ▸ fetch_error hend.ge

/-- Settles O23: a 12-bit address and a byte add up to at most 0x10FE, so the 16-bit sum is exact. -/
theorem jumpWithOffsetAddsV0 : Obligations.JumpWithOffsetAddsV0 := by
  refine ⟨coded_of_row (c := .jpV0) nofun (fun _ => rfl) (mask_c · 0xB), fun nnn s => ?_⟩
  obtain ⟨t, hjump, hpc, hframe⟩ := jumpTo_next (targetV0 nnn s) s
  have hsum : t.pc.toNat = nnn.toNat + (s.reg 0).toNat := by rw [hpc, targetV0_toNat]
  have hnnn := nnn.isLt
  have hreg := (s.reg 0).isLt
  exact ⟨t, hjump, hsum, by omega, hframe, fetch_error⟩

/-- Settles O24: both end as skips on the Boolean comparison of the register with the byte. -/
theorem immediateSkipsCompareWithTheByte : Obligations.ImmediateSkipsCompareWithTheByte :=
  ⟨coded_of_row (c := .seImm) nofun (fun _ => rfl) (mask_c · 0x3),
    coded_of_row (c := .sneImm) nofun (fun _ => rfl) (mask_c · 0x4),
    fun _ _ _ => ⟨skipsWhen_of_exec rfl beq_iff_eq, skipsWhen_of_exec rfl bne_iff_ne⟩⟩

/-- Settles O25: both end as skips on the Boolean comparison of the two registers. -/
theorem registerSkipsCompareTheRegisters : Obligations.RegisterSkipsCompareTheRegisters :=
  ⟨coded_of_row (c := .seReg) nofun (fun _ => rfl) (mask_c_n · 0x5 0 (by decide)),
    coded_of_row (c := .sneReg) nofun (fun _ => rfl) (mask_c_n · 0x9 0 (by decide)),
    fun _ _ _ => ⟨skipsWhen_of_exec rfl beq_iff_eq, skipsWhen_of_exec rfl bne_iff_ne⟩⟩

end Sys2Proof.Machine
end

section
/-! PROOFS. Arithmetic and logic (spec/42_alu.md R152 to R154 and R158). Each instruction completes after writing one
register, or the flag and then one register (R151); what either shape does is said once, for every instruction of it. -/

namespace Sys2Proof.Machine

/-! ## Register writes and completion -/

/-- Setting a register leaves everything but that register. -/
theorem frame_setReg {x : Reg} {rs : List Reg} (s : State) (v : Byte) (hx : x ∈ rs) :
    Frame s (s.setReg x v) [] rs :=
  frame_of_fields (fun _ hr => setReg_reg_ne s x v fun heq => hr (heq ▸ hx)) (.inr rfl) (.inr rfl) (.inr rfl)
    (.inr rfl) (.inr rfl) (.inr rfl) (.inr rfl) (.inr rfl) (.inr rfl) (.inr rfl) (.inr rfl) rfl rfl rfl

/-- Completing moves `pc` on by 2 and keeps the registers, and what was unchanged before it is unchanged after it. -/
theorem complete_next {s u : State} {ps : List Part} {rs : List Reg} (redraw timers : Bool) (hpc : u.pc = s.pc)
    (h : Frame s u ps rs) :
    ∃ t, complete redraw timers u = .next t ∧ (∀ r, t.reg r = u.reg r) ∧ t.pc = s.pc + 2 ∧ Frame s t ps rs :=
  ⟨_, rfl, fun _ => rfl, congrArg (· + 2) hpc, { h with }⟩

/-- An instruction that completes after setting one register: the register holds the value, nothing else changed. -/
theorem writesRegister_of_exec {i : Instr} {s : State} {x : Reg} {v : Byte}
    (hexec : exec i s = complete false false (s.setReg x v)) :
    ∃ t, exec i s = .next t ∧ t.reg x = v ∧ t.pc = s.pc + 2 ∧ Frame s t [] [x] := by
  obtain ⟨t, hnext, hreg, hpc, hframe⟩ :=
    complete_next false false (setReg_pc s x v) (frame_setReg s v (List.mem_singleton_self x))
  exact ⟨t, hexec.trans hnext, (hreg x).trans (setReg_reg_same s x v), hpc, hframe⟩

/-! ## The flag and then the result (R151) -/

theorem writeAlu_pc (x : Reg) (out : AluOut) (s : State) : (writeAlu x out s).pc = s.pc := by
  obtain ⟨V, hV⟩ := writeAlu_eq x out s
  rw [hV]

/-- The destination holds the result, `x = F` included. -/
theorem writeAlu_reg_dest (x : Reg) (out : AluOut) (s : State) : (writeAlu x out s).reg x = out.r := by
  rw [writeAlu_reg, if_pos rfl]

/-- VF holds the flag where it is not the destination. -/
theorem writeAlu_reg_vf {x : Reg} (hx : x ≠ vf) (r : Byte) (f : Bool) (s : State) :
    (writeAlu x { r := r, flag := some f } s).reg vf = boolByte f := by
  rw [writeAlu_reg, if_neg hx.symm, if_pos rfl]

/-- The ALU's outputs leave everything but the destination and VF. -/
theorem frame_writeAlu (x : Reg) (out : AluOut) (s : State) : Frame s (writeAlu x out s) [] [x, vf] := by
  have hx : x ∈ [x, vf] := by simp
  have hvf : vf ∈ [x, vf] := by simp
  unfold writeAlu
  cases out.flag with
  | none => exact frame_setReg s _ hx
  | some f => exact frame_trans (frame_setReg s _ hvf) (frame_setReg _ _ hx)

/-- An instruction that completes after writing a flag and a result has the shape of the flag-writing instructions, for
the number its result stands for and the condition its flag decides. -/
theorem writesFlagThenResult_of_exec {i : Reg → Reg → Instr} {result : State → Reg → Reg → Nat}
    {flag : State → Reg → Reg → Prop} {r : State → Reg → Reg → Byte} {f : State → Reg → Reg → Bool}
    (hexec : ∀ x y s, exec (i x y) s = complete false false (writeAlu x { r := r s x y, flag := some (f s x y) } s))
    (hresult : ∀ x y s, (r s x y).toNat = result s x y) (hflag : ∀ x y s, f s x y = true ↔ flag s x y) :
    WritesFlagThenResult i result flag := by
  intro x y s
  obtain ⟨t, hnext, hreg, hpc, hframe⟩ := complete_next false false (writeAlu_pc x _ s) (frame_writeAlu x _ s)
  refine ⟨t, (hexec x y s).trans hnext, ?result, fun hx => ?flag, hpc, hframe⟩
  case result => rw [hreg, writeAlu_reg_dest, hresult]
  case flag =>
    have hvf : t.reg 15 = boolByte (f s x y) := (hreg 15).trans (writeAlu_reg_vf hx _ _ s)
    constructor
    · intro hset; rw [hvf, (hflag x y s).mpr hset]; rfl
    · intro hclear; rw [hvf, Bool.eq_false_iff.mpr (mt (hflag x y s).mp hclear)]; rfl

/-- The carry is set exactly where the exact sum exceeds a byte. -/
theorem carryOut_iff (a b : Byte) : carryOut a b = true ↔ a.toNat + b.toNat > 0xFF := decide_eq_true_iff

/-! ## The obligations -/

/-- Settles O28: the instruction sets one register, to its byte. -/
theorem loadImmediateSetsTheRegister : Obligations.LoadImmediateSetsTheRegister :=
  ⟨coded_of_row (c := .ldImm) nofun (fun _ => rfl) (mask_c · 0x6), fun _ _ _ => writesRegister_of_exec rfl⟩

/-- Settles O29: the ALU has no flag for this addition, so one register is set, to the sum of bytes, which wraps. -/
theorem addImmediateWrapsWithoutAFlag : Obligations.AddImmediateWrapsWithoutAFlag := by
  refine ⟨coded_of_row (c := .addImm) nofun (fun _ => rfl) (mask_c · 0x7), fun x kk s => ?_⟩
  obtain ⟨t, hnext, hreg, hpc, hframe⟩ :
      ∃ t, exec (.addImm x kk) s = .next t ∧ t.reg x = s.reg x + kk ∧ t.pc = s.pc + 2 ∧ Frame s t [] [x] :=
    writesRegister_of_exec rfl
  exact ⟨t, hnext, by rw [hreg, BitVec.toNat_add], hpc, hframe⟩

/-- Settles O30: the ALU passes its second operand on without a flag, so one register is set, to the source. -/
theorem copyWritesTheSourceRegister : Obligations.CopyWritesTheSourceRegister :=
  ⟨coded_of_row (c := .ldReg) nofun (fun _ => rfl) (mask_c_n · 0x8 0x0 (by decide)),
    fun _ _ _ => writesRegister_of_exec rfl⟩

/-- Settles O32: the shape of the flag-writing instructions, with the sum of bytes and its carry. -/
theorem addWritesCarryThenSum : Obligations.AddWritesCarryThenSum :=
  ⟨coded_of_row (c := .addReg) nofun (fun _ => rfl) (mask_c_n · 0x8 0x4 (by decide)),
    writesFlagThenResult_of_exec (fun _ _ _ => rfl) (fun x y s => BitVec.toNat_add (s.reg x) (s.reg y))
      (fun x y s => carryOut_iff (s.reg x) (s.reg y))⟩

end Sys2Proof.Machine
end

section
/-! PROOFS. The index register (spec/43_index_memory.md R180). An instruction that completes after setting `I` changes
nothing else; this is said once, for every instruction of that shape. -/

namespace Sys2Proof.Machine

/-- Setting the index register leaves everything else. -/
theorem frame_setI (s : State) (a : Word) : Frame s { s with I := a } [.I] [] :=
  frame_of_fields (fun _ _ => rfl) (.inl (List.mem_singleton_self Part.I)) (.inr rfl) (.inr rfl) (.inr rfl) (.inr rfl)
    (.inr rfl) (.inr rfl) (.inr rfl) (.inr rfl) (.inr rfl) (.inr rfl) rfl rfl rfl

/-- An instruction that completes after setting the index register: `I` holds the value, nothing else changed. -/
theorem setsIndex_of_exec {i : Instr} {s : State} {a : Word}
    (hexec : exec i s = complete false false { s with I := a }) :
    ∃ t, exec i s = .next t ∧ t.I = a ∧ t.pc = s.pc + 2 ∧ Frame s t [.I] [] :=
  ⟨_, hexec, rfl, rfl, { frame_setI s a with }⟩

/-- Settles O36: the instruction sets `I` to the zero-extended address, which is the same number. -/
theorem loadIndexSetsTheAddress : Obligations.LoadIndexSetsTheAddress := by
  refine ⟨coded_of_row (c := .ldI) nofun (fun _ => rfl) (mask_c · 0xA), fun nnn s => ?_⟩
  obtain ⟨t, hnext, hI, hpc, hframe⟩ :
      ∃ t, exec (.ldI nnn) s = .next t ∧ t.I = target nnn ∧ t.pc = s.pc + 2 ∧ Frame s t [.I] [] :=
    setsIndex_of_exec rfl
  exact ⟨t, hnext, by rw [hI, target_toNat], hpc, hframe⟩

end Sys2Proof.Machine
end

section
/-! PROOFS. Clearing the screen and the timer transfers (spec/44_display_keys_timers.md R200 and R205 to R207). Each
instruction completes, with a hint, after writing one piece of the state; what the write leaves is a frame, and completing
keeps it. -/

namespace Sys2Proof.Machine

/-! ## The pieces written and completion -/

/-- Setting the framebuffer leaves everything else. -/
theorem frame_setFb (s : State) (fb : Framebuffer) : Frame s { s with fb := fb } [.fb] [] :=
  { frame_refl s [.fb] [] with fb := fun hn => absurd (List.mem_singleton_self Part.fb) hn }

/-- Setting the delay timer leaves everything else. -/
theorem frame_setDT (s : State) (v : Byte) : Frame s { s with DT := v } [.DT] [] :=
  { frame_refl s [.DT] [] with DT := fun hn => absurd (List.mem_singleton_self Part.DT) hn }

/-- Setting the sound timer leaves everything else. -/
theorem frame_setST (s : State) (v : Byte) : Frame s { s with ST := v } [.ST] [] :=
  { frame_refl s [.ST] [] with ST := fun hn => absurd (List.mem_singleton_self Part.ST) hn }

/-- What was unchanged before an instruction completes is unchanged after it, whatever its hints. -/
theorem frame_complete {s u : State} {ps : List Part} {rs : List Reg} {redraw timers : Bool} (h : Frame s u ps rs) :
    Frame s ((u.advance 2).returning redraw timers) ps rs :=
  { h with }

/-- The tone sounds exactly while the sound timer is not 0. -/
theorem tone_iff (s : State) : s.tone = true ↔ s.ST ≠ 0 := by
  rw [State.tone, decide_eq_true_iff, gt_iff_lt, Nat.pos_iff_ne_zero, Ne, Ne, ← BitVec.toNat_inj]
  rfl

/-! ## The obligations -/

/-- Settles O44: the framebuffer written is the clear one, every pixel of which reads 0. -/
theorem clearZeroesEveryPixel : Obligations.ClearZeroesEveryPixel :=
  ⟨coded_of_row (c := .cls) nofun (fun _ => rfl) (mask_all · 0x00E0),
    fun s => ⟨_, rfl, fun r c => get_clear (r, c), rfl, rfl, frame_complete (frame_setFb s _)⟩⟩

/-- Settles O48: each transfer writes one register or one timer, with the byte of its source; the tone follows the sound
timer. -/
theorem timerTransfersCopyTheByte : Obligations.TimerTransfersCopyTheByte := by
  refine ⟨coded_of_row (c := .ldVxDt) nofun (fun _ => rfl) (mask_c_kk · 0xF 0x07),
    coded_of_row (c := .ldDtVx) nofun (fun _ => rfl) (mask_c_kk · 0xF 0x15),
    coded_of_row (c := .ldStVx) nofun (fun _ => rfl) (mask_c_kk · 0xF 0x18), ?readDT, ?writeDT, ?writeST⟩
  case readDT =>
    exact fun x s => ⟨_, rfl, setReg_reg_same s x s.DT, rfl, rfl,
      frame_complete (frame_setReg s s.DT (List.mem_singleton_self x))⟩
  case writeDT => exact fun x s => ⟨_, rfl, rfl, rfl, rfl, frame_complete (frame_setDT s (s.reg x))⟩
  case writeST => exact fun x s => ⟨_, rfl, rfl, tone_iff _, rfl, rfl, frame_complete (frame_setST s (s.reg x))⟩

end Sys2Proof.Machine
end

section
/-! PROOFS. The program in memory after `Load` (spec/70_reset_and_hazards.md R263). One byte of it is read at its own
address; the word fetched first is two of these bytes. -/

namespace Sys2Proof.Machine

/-- Byte `j` of the program lies above the font, so it is what memory reads at its own address after `Load`. -/
theorem read_loadedMemory_program (font : Config.Font) {rom : List Byte} {j : Nat} (h : j < rom.length) :
    (loadedMemory font rom).read (0x200 + j) = rom[j] := by
  rw [read_loadedMemory, if_neg (by omega), if_pos (by omega), Nat.add_sub_cancel_left]
  exact (List.getElem_eq_getD 0).symm

/-- Settles O55: every byte of the program is read at its own address, and the first fetch, at 0x200, joins bytes 0 and 1
of it, the first one high. -/
theorem loadCopiesTheProgramVerbatim : Obligations.LoadCopiesTheProgramVerbatim := by
  intro rom s hfits
  rw [load_ok s hfits]
  have hpc : State.reset.pc.toNat ≤ 0xFFE := by decide
  refine ⟨fun _ hj => read_loadedMemory_program _ hj, fun htwo => ⟨_, fetch_ok hpc, ?_⟩⟩
  have hhigh : (loadedMemory s.params.font rom).read 0x200 = rom[0] :=
    read_loadedMemory_program (j := 0) _ (by omega)
  have hlow : (loadedMemory s.params.font rom).read 0x201 = rom[1] :=
    read_loadedMemory_program (j := 1) _ htwo
  exact congrArg₂ joinBytes hhigh hlow

end Sys2Proof.Machine
end

section
/-! PROOFS. The decoder against the encoder and the opcode map (spec/30_encoding.md R77 to R86). A word is given a class
exactly where it has the fixed digits of the class's pattern (Laws/Decode.lean), so each statement is about patterns. -/

namespace Sys2Proof

open Laws.EncodedInRow (classOf)

/-! ## Decoding as an equation about the record -/

theorem decode_eq_ok {op : Word} {i : Instr} : decode op = .ok i ↔ (decodeFields op).instr? = some i := by
  unfold decode
  cases (decodeFields op).instr? <;> simp

/-- Only the class UNKNOWN is no instruction. -/
theorem instr?_eq_none (d : Decoded) : d.instr? = none ↔ d.cls = .unknown := by
  unfold Decoded.instr?
  cases d.cls <;> simp

theorem decode_eq_unknown (op : Word) : decode op = .error (.unknownInstruction op) ↔ classify op = .unknown := by
  rw [show classify op = (decodeFields op).cls from rfl, ← instr?_eq_none]
  unfold decode
  cases (decodeFields op).instr? <;> simp

/-- The record of a word that has the fixed digits of a class. -/
theorem decodeFields_of_pattern {op : Word} {c : Cls} (h : patternOf op c) (hc : c ≠ .unknown) :
    decodeFields op = { decodeFields op with cls := c } := by
  unfold decodeFields
  rw [classify_eq h hc]

/-! ## Encoding and decoding -/

theorem classOf_ne_unknown (i : Instr) : classOf i ≠ .unknown := by
  cases i <;> nofun

/-- The word of an instruction has the fixed digits of its class. -/
theorem encode_pattern (i : Instr) : patternOf (encode i) (classOf i) := by
  cases i <;> simp [encode, classOf, patternOf]

/-- The word of a well-formed instruction has the instruction's operands as its fields. -/
theorem encode_operands {i : Instr} (h : i.wellFormed = true) :
    ({ decodeFields (encode i) with cls := classOf i } : Decoded).instr? = some i := by
  cases i
  case drw x y n =>
    have hn : n ≤ 15 := of_decide_eq_true h
    simp [encode, classOf, decodeFields, Decoded.instr?, Nat.mod_eq_of_lt (show n < 16 by omega)]
  all_goals simp [encode, classOf, decodeFields, Decoded.instr?]

/-- Settles O3: the word of an instruction is given the instruction's class, and its fields are the operands. -/
theorem decodeOfEncodeIsTheInstruction : Obligations.DecodeOfEncodeIsTheInstruction := by
  intro i hwf
  rw [decode_eq_ok, decodeFields_of_pattern (encode_pattern i) (classOf_ne_unknown i), encode_operands hwf]

/-- An instruction with the fields of a word that has the fixed digits of its class is encoded as that word. -/
theorem encode_of_pattern {op : Word} {c : Cls} {i : Instr} (h : patternOf op c)
    (hi : ({ decodeFields op with cls := c } : Decoded).instr? = some i) : encode i = op := by
  have hnnn := wordNNN_fields op
  have hxkk := wordXKK_fields op
  have hxyn := wordXYN_fields op
  cases c <;> cases hi <;> simp only [patternOf] at h
  all_goals simp_all [encode, decodeFields]

/-- Settles O4: a decoded word has the fixed digits of its class, and the other digits are the operands. -/
theorem encodeOfDecodeIsTheWord : Obligations.EncodeOfDecodeIsTheWord :=
  fun op _ h => ⟨Machine.decode_wellFormed h, encode_of_pattern (classify_pattern op) (decode_eq_ok.mp h)⟩

/-! ## The opcode map (R82) -/

/-- The rows of the map, each said in terms of the fields: the word is one of the row's exactly where it has the fixed
digits of the row's class. -/
theorem hits_iff_pattern (op : Word) : ∀ r ∈ opcodeMap, (r.hits op = true ↔ patternOf op r.cls) := by
  simp only [opcodeMap, opcodeMapPlain, opcodeMapAlu, opcodeMapEF, List.cons_append, List.nil_append,
    List.forall_mem_cons, OpcodeRow.hits, beq_iff_eq]
  exact ⟨mask_all op _, mask_all op _, mask_c op 0x1, mask_c op 0x2, mask_c op 0x3, mask_c op 0x4,
    mask_c_n op 0x5 0 (by decide), mask_c op 0x6, mask_c op 0x7, mask_c_n op 0x9 0 (by decide), mask_c op 0xA,
    mask_c op 0xB, mask_c op 0xC, mask_c op 0xD,
    mask_c_n op 0x8 0x0 (by decide), mask_c_n op 0x8 0x1 (by decide), mask_c_n op 0x8 0x2 (by decide),
    mask_c_n op 0x8 0x3 (by decide), mask_c_n op 0x8 0x4 (by decide), mask_c_n op 0x8 0x5 (by decide),
    mask_c_n op 0x8 0x6 (by decide), mask_c_n op 0x8 0x7 (by decide), mask_c_n op 0x8 0xE (by decide),
    mask_c_kk op 0xE 0x9E, mask_c_kk op 0xE 0xA1, mask_c_kk op 0xF 0x07, mask_c_kk op 0xF 0x0A, mask_c_kk op 0xF 0x15,
    mask_c_kk op 0xF 0x18, mask_c_kk op 0xF 0x1E, mask_c_kk op 0xF 0x29, mask_c_kk op 0xF 0x33, mask_c_kk op 0xF 0x55,
    mask_c_kk op 0xF 0x65, nofun⟩

theorem row_cls_ne_unknown : ∀ r ∈ opcodeMap, r.cls ≠ .unknown := by decide

theorem row_of_cls {c : Cls} (hc : c ≠ .unknown) : ∃ r ∈ opcodeMap, r.cls = c := by
  revert hc
  cases c <;> decide

/-- No class has two rows. -/
theorem row_cls_inj : ∀ r ∈ opcodeMap, ∀ q ∈ opcodeMap, r.cls = q.cls → r = q := by decide

/-- A row that matches a word gives the word's class. -/
theorem classify_of_hits {op : Word} {r : OpcodeRow} (hr : r ∈ opcodeMap) (h : r.hits op = true) :
    classify op = r.cls :=
  classify_eq ((hits_iff_pattern op r hr).mp h) (row_cls_ne_unknown r hr)

/-- Settles O5: a row that matches gives the class; a known class has a row, which matches; and two rows that match have
the same class. -/
theorem decoderFollowsTheOpcodeMap : Obligations.DecoderFollowsTheOpcodeMap := by
  refine fun op => ⟨fun r hr h => classify_of_hits hr h, fun hnone => ?unknown, fun r hr q hq h h' => ?disjoint⟩
  case unknown =>
    by_contra hknown
    obtain ⟨r, hr, hcls⟩ := row_of_cls hknown
    have hhit : r.hits op = true := (hits_iff_pattern op r hr).mpr (hcls ▸ classify_pattern op)
    exact absurd hhit (by simp [hnone r hr])
  case disjoint =>
    exact row_cls_inj r hr q hq ((classify_of_hits hr h).symm.trans (classify_of_hits hq h'))

/-! ## The unknown words (R84 to R86) -/

theorem classify0_unknown (op : Word) : classify0 op = .unknown ↔ op ≠ 0x00E0 ∧ op ≠ 0x00EE := by
  unfold classify0
  split_ifs <;> simp_all

theorem classify8_unknown {n : Nat} (hn : n < 16) :
    classify8 n = .unknown ↔ n ∈ [0x8, 0x9, 0xA, 0xB, 0xC, 0xD, 0xF] := by
  revert n
  decide

theorem classifyE_unknown (kk : Byte) : classifyE kk = .unknown ↔ kk ∉ ([0x9E, 0xA1] : List Byte) := by
  unfold classifyE
  split_ifs <;> simp_all

theorem classifyF_unknown (kk : Byte) :
    classifyF kk = .unknown ↔ kk ∉ ([0x07, 0x0A, 0x15, 0x18, 0x1E, 0x29, 0x33, 0x55, 0x65] : List Byte) := by
  unfold classifyF
  split_ifs <;> simp_all

/-- Settles O6: for each class nibble, the words that the secondary dispatch leaves out. -/
theorem unknownWordsAreTheOnesLeftOut : Obligations.UnknownWordsAreTheOnesLeftOut := by
  intro op
  have hn : fieldN op < 16 := (op.extractLsb' 0 4).isLt
  rw [decode_eq_unknown, ← classify0_unknown, ← classify8_unknown hn, ← classifyE_unknown, ← classifyF_unknown]
  unfold classify
  rcases nibble_cases (fieldC op) with h | h | h | h | h | h | h | h | h | h | h | h | h | h | h | h <;> simp [h]

/-- Settles O2: the decoder run on each word. -/
theorem sampleWordsDecode : Obligations.SampleWordsDecode := by
  unfold Obligations.SampleWordsDecode
  decide

end Sys2Proof
end

section
/-! PROOFS. What an instruction can do, said once for all of them: it raises the one error its check finds (R57, R236), or
it executes and then changes the pieces named for it, goes on at the `pc` of R106 and answers Ok with its hints (R108 to
R110). -/

namespace Sys2Proof.Machine

/-! ## What an executing instruction may do -/

/-- The pieces of state an instruction writes as it executes, beside `pc`, the result and the registers of
`writtenRegs`. -/
def writtenParts : Instr → List Part
  | .cls | .drw _ _ _ => [.fb]
  | .ret => [.sp]
  | .call _ => [.stack, .sp]
  | .ldI _ | .addI _ | .ldFont _ => [.I]
  | .ldBcd _ | .storeRegs _ => [.mem]
  | .ldDtVx _ => [.DT]
  | .ldStVx _ => [.ST]
  | .ldVxKey _ => [.awaitingKey]
  | .rnd _ _ => [.draws]
  | _ => []

/-- The instructions that hint redraw (R109). -/
def hintsRedraw : Instr → Bool
  | .cls | .drw _ _ _ => true
  | _ => false

/-- The instructions that hint the timers (R110). -/
def hintsTimers : Instr → Bool
  | .ldVxDt _ | .ldDtVx _ | .ldStVx _ => true
  | _ => false

/-- From `s` to `t` the instruction executed: only what it may write changed, memory also as data, and it ended with its
hints and at the `pc` of R106. -/
structure Executes (i : Instr) (s t : State) : Prop where
  frame  : Frame s t (writtenParts i) (writtenRegs i)
  mem    : .mem ∉ writtenParts i → t.mem = s.mem
  result : t.result = okResult (hintsRedraw i) (hintsTimers i)
  pc     : s.pc.toNat ≤ 0xFFE → t.pc.toNat = pcAfter i s

/-! ## Frames -/

/-- A frame may name more than what changed. -/
theorem frame_mono {s t : State} {ps qs : List Part} {rs us : List Reg} (h : Frame s t ps rs) (hp : ps ⊆ qs)
    (hr : rs ⊆ us) : Frame s t qs us where
  regs r hn := h.regs r (mt (hr ·) hn)
  I hn := h.I (mt (hp ·) hn)
  mem hn := h.mem (mt (hp ·) hn)
  stack hn := h.stack (mt (hp ·) hn)
  sp hn := h.sp (mt (hp ·) hn)
  DT hn := h.DT (mt (hp ·) hn)
  ST hn := h.ST (mt (hp ·) hn)
  fb hn := h.fb (mt (hp ·) hn)
  key hn := h.key (mt (hp ·) hn)
  awaitingKey hn := h.awaitingKey (mt (hp ·) hn)
  fault hn := h.fault (mt (hp ·) hn)
  draws hn := h.draws (mt (hp ·) hn)
  cur := h.cur
  params := h.params
  schedule := h.schedule

/-- Setting memory leaves everything else. -/
theorem frame_setMem (s : State) (m : Memory) : Frame s { s with mem := m } [.mem] [] :=
  { frame_refl s [.mem] [] with mem := fun hn => absurd (List.mem_singleton_self Part.mem) hn }

/-- Setting the stack pointer leaves everything else. -/
theorem frame_setSp (s : State) (sp : Fin 17) : Frame s { s with sp := sp } [.sp] [] :=
  { frame_refl s [.sp] [] with sp := fun hn => absurd (List.mem_singleton_self Part.sp) hn }

/-- Setting the stack and the stack pointer leaves everything else. -/
theorem frame_setStack (s : State) (stack : Vector Word 16) (sp : Fin 17) :
    Frame s { s with stack := stack, sp := sp } [.stack, .sp] [] :=
  { frame_refl s [.stack, .sp] [] with
    stack := fun hn => absurd (by decide) hn
    sp := fun hn => absurd (by decide) hn }

/-- Beginning a wait leaves everything else. -/
theorem frame_setWait (s : State) (w : Option Reg) : Frame s { s with awaitingKey := w } [.awaitingKey] [] :=
  { frame_refl s [.awaitingKey] [] with
    awaitingKey := fun hn => absurd (List.mem_singleton_self Part.awaitingKey) hn }

/-- Taking draws leaves everything else. -/
theorem frame_setDraws (s : State) (k : Nat) : Frame s { s with draws := k } [.draws] [] :=
  { frame_refl s [.draws] [] with draws := fun hn => absurd (List.mem_singleton_self Part.draws) hn }

/-- Setting a register and the count of draws leaves everything else. -/
theorem frame_setReg_draws (s : State) (x : Reg) (v : Byte) (k : Nat) :
    Frame s { s.setReg x v with draws := k } [.draws] [x] :=
  frame_trans (frame_mono (frame_setReg s v (List.mem_singleton_self x)) (List.nil_subset _) (List.Subset.refl _))
    (frame_mono (frame_setDraws _ k) (List.Subset.refl _) (List.nil_subset _))

/-- Setting the framebuffer and a register leaves everything else. -/
theorem frame_setFb_setReg (s : State) (fb : Framebuffer) (x : Reg) (v : Byte) :
    Frame s (({ s with fb := fb } : State).setReg x v) [.fb] [x] :=
  frame_trans (frame_mono (frame_setFb s fb) (List.Subset.refl _) (List.nil_subset _))
    (frame_mono (frame_setReg _ v (List.mem_singleton_self x)) (List.nil_subset _) (List.Subset.refl _))

/-- Loading a block of registers leaves the registers above it and everything else. -/
theorem frame_loadBlock (s : State) (x : Reg) (bytes : List Byte) (h : bytes.length = x.val + 1) :
    Frame s { s with V := setRegsFrom s.V 0 bytes } [] ((List.finRange 16).filter fun j => j ≤ x) :=
  { frame_refl s [] [] with
    regs := fun r hr => by
      have habove : x.val < r.val := by simpa using hr
      exact (setRegsFrom_getElem s.V 0 bytes r r.isLt).trans (if_neg (by omega)) }

/-! ## The ends of an instruction -/

/-- An instruction executes if it completes after writing only what it may. -/
theorem executes_of_complete {i : Instr} {s u : State} (hexec : exec i s = complete (hintsRedraw i) (hintsTimers i) u)
    (hafter : pcAfter i s = s.pc.toNat + 2) (hpc : u.pc = s.pc) (hframe : Frame s u (writtenParts i) (writtenRegs i))
    (hmem : .mem ∉ writtenParts i → u.mem = s.mem) : ∃ t, exec i s = .next t ∧ Executes i s t := by
  refine ⟨_, hexec, frame_complete hframe, hmem, rfl, fun hfetch => ?_⟩
  rw [hafter, ← toNat_pc_add_two hfetch, ← hpc]
  rfl

/-- An instruction executes if it ends as a skip on the condition that R106 skips on. -/
theorem executes_of_skip {i : Instr} {s : State} (hexec : exec i s = skipIf (skips i s) s)
    (hafter : pcAfter i s = s.pc.toNat + if skips i s then 4 else 2) (hredraw : hintsRedraw i = false)
    (htimers : hintsTimers i = false) : ∃ t, exec i s = .next t ∧ Executes i s t := by
  refine ⟨_, hexec, frame_mono (frame_pc_result s _ _) (List.nil_subset _) (List.nil_subset _), fun _ => rfl,
    by rw [hredraw, htimers]; rfl, fun hfetch => ?_⟩
  rw [hafter]
  cases skips i s
  · exact toNat_pc_add_two hfetch
  · exact toNat_pc_add_four hfetch

/-- An instruction executes if it ends as a jump, after writing only what it may, to where R106 says. -/
theorem executes_of_jump {i : Instr} {s u : State} {target : Word} (hexec : exec i s = jumpTo target u)
    (hafter : target.toNat = pcAfter i s) (hframe : Frame s u (writtenParts i) (writtenRegs i)) (hmem : u.mem = s.mem)
    (hredraw : hintsRedraw i = false) (htimers : hintsTimers i = false) :
    ∃ t, exec i s = .next t ∧ Executes i s t :=
  ⟨_, hexec, { hframe with }, fun _ => hmem, by rw [hredraw, htimers]; rfl, fun _ => hafter⟩

/-- An instruction executes if it completes after setting one register. -/
theorem executes_of_setReg {i : Instr} {s : State} {x : Reg} {v : Byte}
    (hexec : exec i s = complete (hintsRedraw i) (hintsTimers i) (s.setReg x v))
    (hafter : pcAfter i s = s.pc.toNat + 2) (hx : x ∈ writtenRegs i) : ∃ t, exec i s = .next t ∧ Executes i s t :=
  executes_of_complete hexec hafter rfl
    (frame_mono (frame_setReg s v hx) (List.nil_subset _) (List.Subset.refl _)) fun _ => rfl

/-- An instruction executes if it completes after writing a flag and a result. -/
theorem executes_of_writeAlu {i : Instr} {s : State} {x : Reg} {out : AluOut}
    (hexec : exec i s = complete (hintsRedraw i) (hintsTimers i) (writeAlu x out s))
    (hafter : pcAfter i s = s.pc.toNat + 2) (hregs : writtenRegs i = [15, x]) :
    ∃ t, exec i s = .next t ∧ Executes i s t := by
  obtain ⟨V, hV⟩ := writeAlu_eq x out s
  refine executes_of_complete hexec hafter (writeAlu_pc x out s) ?frame fun _ => by rw [hV]
  have hsub : [x, vf] ⊆ writtenRegs i := by simp [hregs, vf]
  exact frame_mono (frame_writeAlu x out s) (List.nil_subset _) hsub

/-! ## The checks (R231 to R233) -/

theorem ret_check (s : State) : faultOf .ret s = none ↔ 0 < s.sp.val := by
  simp [faultOf, Nat.pos_iff_ne_zero]

theorem call_check (nnn : Addr) (s : State) : faultOf (.call nnn) s = none ↔ s.sp.val < 16 := by
  have := s.sp.isLt
  simp only [faultOf, ite_eq_right_iff, reduceCtorEq, imp_false]
  omega

theorem ret_error {s : State} {e : FatalError} (h : faultOf .ret s = some e) :
    s.sp.val = 0 ∧ e = .stackUnderflow 0 := by
  simpa [faultOf, eq_comm] using h

theorem call_error {nnn : Addr} {s : State} {e : FatalError} (h : faultOf (.call nnn) s = some e) :
    s.sp.val = 16 ∧ e = .stackOverflow 16 := by
  simpa [faultOf, eq_comm] using h

theorem drw_error {x y : Reg} {n : Nat} {s : State} {e : FatalError} (h : faultOf (.drw x y n) s = some e) :
    n ≠ 0 ∧ outside s.I n = some e := by
  simpa [faultOf] using h

theorem drw_check {x y : Reg} {n : Nat} {s : State} (h : faultOf (.drw x y n) s = none) :
    n = 0 ∨ s.I.toNat + n - 1 ≤ 0xFFF := by
  by_cases hn : n = 0
  · exact .inl hn
  · exact .inr (outside_none ((if_neg hn).symm.trans h))

/-- The entry a return pops. -/
theorem stack_top (s : State) (h : 0 < s.sp.val) :
    (s.stack.toList[s.sp.val - 1]?).getD 0 = s.stack[s.sp.val - 1]'(by omega) := by
  have hlt : s.sp.val - 1 < 16 := by omega
  simp [hlt]

/-! ## Every instruction executes or raises -/

/-- An instruction whose check passes executes. -/
theorem exec_executes {i : Instr} {s : State} (h : faultOf i s = none) : ∃ t, exec i s = .next t ∧ Executes i s t := by
  cases i with
  | cls => exact executes_of_complete rfl rfl rfl (frame_setFb s _) fun _ => rfl
  | ret =>
    have hsp := (ret_check s).mp h
    have htop := congrArg BitVec.toNat (stack_top s hsp).symm
    exact executes_of_jump (exec_ret_ok s hsp) htop (frame_setSp s _) rfl rfl rfl
  | jp nnn => exact executes_of_jump rfl (target_toNat nnn) (frame_refl s _ _) rfl rfl rfl
  | call nnn =>
    have hsp := (call_check nnn s).mp h
    exact executes_of_jump (exec_call_ok s nnn hsp) (target_toNat nnn) (frame_setStack s _ _) rfl rfl rfl
  | jpV0 nnn => exact executes_of_jump rfl (targetV0_toNat nnn s) (frame_refl s _ _) rfl rfl rfl
  | seImm | sneImm | seReg | sneReg =>
    refine executes_of_skip ?_ rfl rfl rfl
    simp [exec, execSeImm, execSneImm, execSeReg, execSneReg, skips, beq_eq_decide, bne]
  | skp x =>
    have hkey := noKey_none h
    exact executes_of_skip (by rw [exec_skp_ok s x hkey, skips, keyNamed_eq s x hkey]) rfl rfl rfl
  | sknp x =>
    have hkey := noKey_none h
    exact executes_of_skip (by rw [exec_sknp_ok s x hkey, skips, keyNamed_eq s x hkey]) rfl rfl rfl
  | ldImm | addImm | ldReg | orReg | andReg | xorReg | ldVxDt =>
    exact executes_of_setReg rfl rfl (List.mem_singleton_self _)
  | addReg | subReg | shr | subn | shl => exact executes_of_writeAlu rfl rfl rfl
  | rnd x kk => exact executes_of_complete rfl rfl rfl (frame_setReg_draws s x _ _) fun _ => rfl
  | ldI | addI | ldFont => exact executes_of_complete rfl rfl rfl (frame_setI s _) fun _ => rfl
  | drw x y n =>
    exact executes_of_complete (exec_drw_ok s x y n (drw_check h)) rfl rfl (frame_setFb_setReg s _ _ _) fun _ => rfl
  | ldDtVx x => exact executes_of_complete rfl rfl rfl (frame_setDT s _) fun _ => rfl
  | ldStVx x => exact executes_of_complete rfl rfl rfl (frame_setST s _) fun _ => rfl
  | ldVxKey x => exact ⟨_, rfl, { frame_setWait s (some x) with }, fun _ => rfl, rfl, fun _ => rfl⟩
  | ldBcd x =>
    exact executes_of_complete (exec_ldBcd_ok s x (outside_none h)) rfl rfl (frame_setMem s _)
      fun hn => absurd (List.mem_singleton_self Part.mem) hn
  | storeRegs x =>
    exact executes_of_complete (exec_storeRegs_ok s x (outside_none h)) rfl rfl (frame_setMem s _)
      fun hn => absurd (List.mem_singleton_self Part.mem) hn
  | loadRegs x =>
    exact executes_of_complete (exec_loadRegs_ok s x (outside_none h)) rfl rfl
      (frame_loadBlock s x _ (readBytes_length _ _ _)) fun _ => rfl

/-- A store that does not fit is raised, and nothing is stored. -/
theorem storeAtI_raises {s : State} {bytes : List Byte} (h : s.I.toNat + bytes.length - 1 > 0xFFF) :
    storeAtI bytes s = .next (raise (.outOfBounds s.I.toNat bytes.length) (some s.cur) s) := by
  simp only [storeAtI, memWrite_error h, orRaise_error]

/-- An instruction whose check finds an error raises it. -/
theorem exec_raises {i : Instr} {s : State} {e : FatalError} (h : faultOf i s = some e) :
    exec i s = .next (raise e (some s.cur) s) := by
  cases i
  case ret =>
    obtain ⟨hsp, rfl⟩ := ret_error h
    simp only [exec, execRet, stackPop_error hsp, orRaise_error]
  case call =>
    obtain ⟨hsp, rfl⟩ := call_error h
    simp only [exec, execCall, stackPush_error hsp, orRaise_error]
  case drw n =>
    obtain ⟨hn, hout⟩ := drw_error h
    obtain ⟨hover, rfl⟩ := outside_some hout
    simp only [exec, execDrw, spriteRows, if_neg hn, memRead_error hover, orRaise_error]
  case skp =>
    obtain ⟨hkey, rfl⟩ := noKey_some h
    simp only [exec, execSkp, keyRead_error hkey, orRaise_error]
  case sknp =>
    obtain ⟨hkey, rfl⟩ := noKey_some h
    simp only [exec, execSknp, keyRead_error hkey, orRaise_error]
  case ldBcd x =>
    obtain ⟨hout, rfl⟩ := outside_some h
    exact storeAtI_raises (bytes := bcdDigits (s.reg x)) hout
  case storeRegs x =>
    obtain ⟨hout, rfl⟩ := outside_some h
    rw [← regBlock_length x s] at hout ⊢
    exact storeAtI_raises hout
  case loadRegs =>
    obtain ⟨hout, rfl⟩ := outside_some h
    simp only [exec, execLoadRegs, memRead_error hout, orRaise_error]
  all_goals cases h

/-- Everything an instruction can do. -/
theorem exec_cases (i : Instr) (s : State) :
    (∃ e, faultOf i s = some e ∧ exec i s = .next (raise e (some s.cur) s)) ∨
    (faultOf i s = none ∧ ∃ t, exec i s = .next t ∧ Executes i s t) := by
  rcases Option.eq_none_or_eq_some (faultOf i s) with h | ⟨e, h⟩
  · exact .inr ⟨h, exec_executes h⟩
  · exact .inl ⟨e, h, exec_raises h⟩

end Sys2Proof.Machine
end

section
/-! PROOFS. The statements about all instructions (spec/40_cycle.md R106 and R109, spec/60_exceptions.md R236,
spec/10_state.md R24 to R42). Each is read off what an instruction can do: raise its error, or execute. -/

namespace Sys2Proof.Machine

/-- Settles O14: an instruction that executes keeps the fault record and ends with status Ok at the `pc` of R106. -/
theorem instructionsCompleteWhereNoErrorApplies : Obligations.InstructionsCompleteWhereNoErrorApplies := by
  intro i s h hpc
  obtain ⟨t, hnext, ht⟩ := exec_executes h
  have hfault : Part.fault ∉ writtenParts i := by cases i <;> simp [writtenParts]
  exact ⟨t, hnext, ht.frame.fault hfault, congrArg Result.status ht.result, ht.pc hpc⟩

/-- Settles O15: raising is the one thing a failing check leads to. -/
theorem faultingInstructionsChangeNothing : Obligations.FaultingInstructionsChangeNothing :=
  fun _ _ _ h => exec_raises h

/-- Settles O16: an instruction that executes answers with its hints, and these are true for the instructions named. -/
theorem hintsNameDisplayAndTimerInstructions : Obligations.HintsNameDisplayAndTimerInstructions := by
  intro i s h
  obtain ⟨t, hnext, ht⟩ := exec_executes h
  refine ⟨t, hnext, ?redraw, ?timers⟩
  case redraw =>
    rw [ht.result, okResult]
    cases i <;> simp [hintsRedraw]
  case timers =>
    rw [ht.result, okResult]
    cases i <;> simp [hintsTimers]

/-! ## The writers of each piece of state -/

section writers
variable {i : Instr}

theorem writes_mem : .mem ∈ writtenParts i → ∃ x, i = .ldBcd x ∨ i = .storeRegs x := by
  cases i <;> simp [writtenParts]

theorem writes_stack : .stack ∈ writtenParts i → ∃ nnn, i = .call nnn := by
  cases i <;> simp [writtenParts]

theorem writes_sp : .sp ∈ writtenParts i → (∃ nnn, i = .call nnn) ∨ i = .ret := by
  cases i <;> simp [writtenParts]

theorem writes_fb : .fb ∈ writtenParts i → i = .cls ∨ ∃ x y n, i = .drw x y n := by
  cases i <;> simp [writtenParts]

theorem writes_I : .I ∈ writtenParts i → (∃ nnn, i = .ldI nnn) ∨ ∃ x, i = .addI x ∨ i = .ldFont x := by
  cases i <;> simp [writtenParts]

theorem writes_DT : .DT ∈ writtenParts i → ∃ x, i = .ldDtVx x := by
  cases i <;> simp [writtenParts]

theorem writes_ST : .ST ∈ writtenParts i → ∃ x, i = .ldStVx x := by
  cases i <;> simp [writtenParts]

theorem writes_awaitingKey : .awaitingKey ∈ writtenParts i → ∃ x, i = .ldVxKey x := by
  cases i <;> simp [writtenParts]

theorem writes_draws : .draws ∈ writtenParts i → ∃ x kk, i = .rnd x kk := by
  cases i <;> simp [writtenParts]

theorem writes_key : .key ∉ writtenParts i := by
  cases i <;> simp [writtenParts]

theorem writes_fault : .fault ∉ writtenParts i := by
  cases i <;> simp [writtenParts]

/-- The instructions that check something (R230). -/
theorem raises_of_faultOf {s : State} {e : FatalError} : faultOf i s = some e →
    i = .ret ∨ (∃ nnn, i = .call nnn) ∨ (∃ x y n, i = .drw x y n) ∨
      ∃ x, i = .ldBcd x ∨ i = .storeRegs x ∨ i = .loadRegs x ∨ i = .skp x ∨ i = .sknp x := by
  cases i <;> simp [faultOf]

end writers

/-- Settles O17: raising writes the fault record and the result alone, and the instructions that raise are those of R230;
an instruction that executes writes only its own pieces and registers. -/
theorem eachPieceOfStateHasItsWriters : Obligations.EachPieceOfStateHasItsWriters := by
  intro i s t hexec
  have hwait : (∃ x, i = .ldVxKey x) → t.pc = s.pc := by
    rintro ⟨x, rfl⟩
    cases hexec
    rfl
  rcases exec_cases i s with ⟨e, hfault, hraise⟩ | ⟨-, u, hnext, hu⟩
  · cases hraise.symm.trans hexec
    exact ⟨fun _ h => absurd rfl h, fun h => absurd rfl h, fun h => absurd rfl h, fun h => absurd rfl h,
      fun h => absurd rfl h, fun h => absurd rfl h, fun h => absurd rfl h, fun h => absurd rfl h,
      fun h => absurd rfl h, hwait, fun _ => raises_of_faultOf hfault, fun h => absurd rfl h, rfl, rfl, rfl, rfl⟩
  · cases hnext.symm.trans hexec
    have hframe := hu.frame
    exact ⟨fun r => not_imp_comm.mp (hframe.regs r),
      fun h => writes_mem (not_imp_comm.mp hu.mem h),
      fun h => writes_stack (not_imp_comm.mp hframe.stack h),
      fun h => writes_sp (not_imp_comm.mp hframe.sp h),
      fun h => writes_fb (not_imp_comm.mp hframe.fb h),
      fun h => writes_I (not_imp_comm.mp hframe.I h),
      fun h => writes_DT (not_imp_comm.mp hframe.DT h),
      fun h => writes_ST (not_imp_comm.mp hframe.ST h),
      fun h => writes_awaitingKey (not_imp_comm.mp hframe.awaitingKey h),
      hwait,
      fun h => absurd (hframe.fault writes_fault) h,
      fun h => writes_draws (not_imp_comm.mp hframe.draws h),
      hframe.key writes_key, hframe.cur, hframe.params, hframe.schedule⟩

/-- The instructions that may write VF: as a flag, or because it is their destination. -/
theorem vf_mem_writtenRegs {i : Instr} (h : 15 ∈ writtenRegs i) :
    (∃ x y, i = .addReg x y ∨ i = .subReg x y ∨ i = .shr x y ∨ i = .subn x y ∨ i = .shl x y) ∨
    (∃ x y n, i = .drw x y n) ∨
    (∃ kk, i = .ldImm 15 kk ∨ i = .addImm 15 kk ∨ i = .rnd 15 kk) ∨
    (∃ y, i = .ldReg 15 y ∨ i = .orReg 15 y ∨ i = .andReg 15 y ∨ i = .xorReg 15 y) ∨
    i = .ldVxDt 15 ∨ i = .loadRegs 15 := by
  cases i
  case loadRegs x =>
    have hle : (15 : Reg) ≤ x := by simpa [writtenRegs] using h
    simp [le_antisymm (Fin.le_last x) hle]
  all_goals simp_all [writtenRegs, eq_comm]

/-- Settles O18: a register that changed is one the instruction may write. -/
theorem vfIsWrittenAsFlagOrDestinationOnly : Obligations.VfIsWrittenAsFlagOrDestinationOnly := by
  intro i s t hexec hchanged
  obtain ⟨hregs, -⟩ := eachPieceOfStateHasItsWriters i s t hexec
  exact vf_mem_writtenRegs (hregs 15 hchanged)

/-! ## Non-interference -/

/-- A state with other values in `cur` and the sound timer. -/
def State.setCurST (s : State) (w : Word) (v : Byte) : State := { s with cur := w, ST := v }

/-- Where an instruction ends in `u` from `s`, and from `s` with other values in `u` with these values, it commutes with
setting them. -/
theorem exec_setCurST_of_next {i : Instr} {s t u : State} {w : Word} {v : Byte} (hs : exec i s = .next u)
    (hset : exec i (s.setCurST w v) = .next (u.setCurST w v)) (hexec : exec i s = .next t) :
    exec i (s.setCurST w v) = .next (t.setCurST w v) := by
  cases hs.symm.trans hexec
  exact hset

/-- An instruction that executes, `Fx18` apart, commutes with setting `cur` and the sound timer. -/
theorem exec_setCurST {i : Instr} {s t : State} (w : Word) (v : Byte) (h : faultOf i s = none)
    (hexec : exec i s = .next t) (hi : ¬ ∃ x, i = .ldStVx x) :
    exec i (s.setCurST w v) = .next (t.setCurST w v) := by
  cases i
  case ldStVx x => exact absurd ⟨x, rfl⟩ hi
  case ret =>
    have hsp := (ret_check s).mp h
    exact exec_setCurST_of_next (exec_ret_ok s hsp) (exec_ret_ok (s.setCurST w v) hsp) hexec
  case call nnn =>
    have hsp := (call_check nnn s).mp h
    exact exec_setCurST_of_next (exec_call_ok s nnn hsp) (exec_call_ok (s.setCurST w v) nnn hsp) hexec
  case drw x y n =>
    have hfits := drw_check h
    exact exec_setCurST_of_next (exec_drw_ok s x y n hfits) (exec_drw_ok (s.setCurST w v) x y n hfits) hexec
  case skp x =>
    have hkey := noKey_none h
    exact exec_setCurST_of_next (exec_skp_ok s x hkey) (exec_skp_ok (s.setCurST w v) x hkey) hexec
  case sknp x =>
    have hkey := noKey_none h
    exact exec_setCurST_of_next (exec_sknp_ok s x hkey) (exec_sknp_ok (s.setCurST w v) x hkey) hexec
  case ldBcd x =>
    have hfits := outside_none h
    exact exec_setCurST_of_next (exec_ldBcd_ok s x hfits) (exec_ldBcd_ok (s.setCurST w v) x hfits) hexec
  case storeRegs x =>
    have hfits := outside_none h
    exact exec_setCurST_of_next (exec_storeRegs_ok s x hfits) (exec_storeRegs_ok (s.setCurST w v) x hfits) hexec
  case loadRegs x =>
    have hfits := outside_none h
    exact exec_setCurST_of_next (exec_loadRegs_ok s x hfits) (exec_loadRegs_ok (s.setCurST w v) x hfits) hexec
  all_goals exact exec_setCurST_of_next rfl rfl hexec

/-- Settles O19: set one of the two and leave the other as it is, which the instruction carries along. -/
theorem noInstructionReadsCurOrTheSoundTimer : Obligations.NoInstructionReadsCurOrTheSoundTimer := by
  intro i s t w v h hexec
  by_cases hi : ∃ x, i = .ldStVx x
  · obtain ⟨x, rfl⟩ := hi
    cases hexec
    exact ⟨rfl, fun hn => absurd ⟨x, rfl⟩ hn, fun _ => rfl⟩
  · obtain ⟨u, hu, hx⟩ := exec_executes h
    cases hu.symm.trans hexec
    have hcur : t.setCurST w s.ST = { t with cur := w } := by
      rw [← hx.frame.ST fun hn => hi (writes_ST hn)]
      rfl
    have hST : t.setCurST s.cur v = { t with ST := v } := by
      rw [← hx.frame.cur]
      rfl
    exact ⟨hcur ▸ exec_setCurST w s.ST h hexec hi, fun _ => hST ▸ exec_setCurST s.cur v h hexec hi,
      fun hn => absurd hn hi⟩

end Sys2Proof.Machine
end

section
/-! PROOFS. The step (spec/40_cycle.md R100 to R107), the operations of the collaborators (R111 to R113), what
lasts over any number of them, and `Load` (spec/70_reset_and_hazards.md R260 to R262). -/

namespace Sys2Proof.Machine

/-! ## The step -/

/-- Settles O9: the two sides of the fetch bound. -/
theorem fetchIsBigEndianAndBounded : Obligations.FetchIsBigEndianAndBounded :=
  fun _ _ => ⟨fun hpc => ⟨_, fetch_ok hpc, joinBytes_toNat _ _⟩, fetch_error⟩

/-- Where the schedule gives `Step`, a step is one on the state with the rest of the schedule. -/
theorem step_of_take_step {s : State} {rest : Schedule} (h : s.schedule.take = (.step, rest)) :
    step s = coreStep { s with schedule := rest } := step_take h

/-- Settles O7: the step fetches the joined bytes, which decode to the instruction. -/
theorem stepRunsTheDecodedInstruction : Obligations.StepRunsTheDecodedInstruction := by
  intro s rest i htake hfault hwait hpc hbytes
  calc step s
    _ = coreStep { s with schedule := rest } := step_of_take_step htake
    _ = runWord _ { s with schedule := rest } := coreStep_fetched hfault hwait (fetch_ok hpc)
    _ = exec i _ := runWord_ok (decode_of_decodeBytes hbytes)

/-- Settles O8: the step fetches the word, and the handler of unknown words does the rest. -/
theorem stepSkipsAnUnknownWord : Obligations.StepSkipsAnUnknownWord := by
  intro s rest op htake hfault hwait hfetch hunknown
  calc step s
    _ = coreStep { s with schedule := rest } := step_of_take_step htake
    _ = runWord op { s with schedule := rest } := coreStep_fetched hfault hwait hfetch
    _ = .next (execUnknown op _) := runWord_unknown hunknown

/-- Settles O10: the fetch fails and its error is raised without an opcode. -/
theorem stepFaultsWhereNothingCanBeFetched : Obligations.StepFaultsWhereNothingCanBeFetched := by
  intro s rest htake hfault hwait hpc
  exact (step_of_take_step htake).trans (coreStep_unfetched hfault hwait (fetch_error hpc))

/-- Settles O11: the two checks that come before the fetch. -/
theorem stepIsInertAfterAFaultAndWhileWaiting : Obligations.StepIsInertAfterAFaultAndWhileWaiting :=
  fun _ => ⟨fun _ => coreStep_faulted, fun _ => coreStep_waiting⟩

/-- Settles O12: the step takes one operation off the schedule, whose four shapes are those of `take`. -/
theorem stepPerformsTheNextOperation : Obligations.StepPerformsTheNextOperation :=
  ⟨fun _ _ _ => step_take, take_soon, take_repeating, take_stepping, take_free,
    fun _ => ⟨rfl, rfl, fun _ _ => rfl, fun _ => rfl⟩⟩

/-! ## Every operation has a next state -/

theorem setKey_release (k : Key) (s : State) : setKey k false s = { s with key := s.key.set k false } := rfl

theorem setKey_press_idle {s : State} (k : Key) (h : s.awaitingKey = none) :
    setKey k true s = { s with key := s.key.set k true } := by
  unfold setKey
  rw [h]

theorem setKey_press_waiting {s : State} {r : Reg} (k : Key) (h : s.awaitingKey = some r) :
    setKey k true s = resolveWait r k { s with key := s.key.set k true } := by
  unfold setKey
  rw [h]

theorem setKey_params (k : Key) (pressed : Bool) (s : State) : (setKey k pressed s).params = s.params := by
  unfold setKey
  split <;> rfl

theorem load_params (rom : List Byte) (s : State) : (load rom s).params = s.params := by
  unfold load
  split <;> rfl

/-- An instruction always ends in a next state, with the same parameters. -/
theorem exec_next (i : Instr) (s : State) : ∃ t, exec i s = .next t ∧ t.params = s.params := by
  rcases exec_cases i s with ⟨e, -, hraise⟩ | ⟨-, t, hnext, ht⟩
  · exact ⟨_, hraise, rfl⟩
  · exact ⟨t, hnext, ht.frame.params⟩

/-- So does an operation. -/
theorem perform_next (op : Op) (s : State) : ∃ t, perform op s = .next t ∧ t.params = s.params := by
  cases op with
  | tickTimers => exact ⟨_, rfl, rfl⟩
  | setKey k pressed => exact ⟨_, rfl, setKey_params k pressed s⟩
  | load rom => exact ⟨_, rfl, load_params rom s⟩
  | step =>
    show ∃ t, coreStep s = .next t ∧ t.params = s.params
    rcases coreStep_cases s with ⟨f, -, h⟩ | ⟨r, -, -, h⟩ | ⟨-, -, -, h⟩ | ⟨op, i, -, -, -, -, h⟩ |
      ⟨op, -, -, -, h⟩
    case inr.inr.inr.inl => exact h ▸ exec_next i { s with cur := op }
    all_goals exact ⟨_, h, rfl⟩

/-- Settles O13: a step performs an operation, on a state with the same parameters. -/
theorem everyStepHasANextState : Obligations.EveryStepHasANextState :=
  fun s => perform_next (nextOp s).1 (nextOp s).2

/-! ## The collaborators' operations -/

theorem countDown_toNat (t : Byte) : (countDown t).toNat = t.toNat - 1 := by
  have := t.isLt
  unfold countDown
  split
  · rw [BitVec.toNat_sub_of_le (show (1 : Byte) ≤ t by rw [BitVec.le_def]; simpa using ‹_›)]
    rfl
  · omega

/-- Settles O49: each timer is counted down, and the tick writes nothing else. -/
theorem tickLowersTheTimers : Obligations.TickLowersTheTimers :=
  fun s => ⟨countDown_toNat s.DT, countDown_toNat s.ST, rfl⟩

/-- Settles O50: the instruction writes the wait alone. -/
theorem waitForKeyKeepsThePc : Obligations.WaitForKeyKeepsThePc :=
  fun x s => ⟨_, rfl, rfl, rfl, { frame_setWait s (some x) with }⟩

/-- Setting the keypad leaves everything else. -/
theorem frame_setKeypad (s : State) (keys : Vector Bool 16) : Frame s { s with key := keys } [.key] [] :=
  { frame_refl s [.key] [] with key := fun hn => absurd (List.mem_singleton_self Part.key) hn }

/-- The end of a wait writes the register, the wait and `pc`. -/
theorem frame_resolveWait (r : Reg) (k : Key) (s : State) : Frame s (resolveWait r k s) [.awaitingKey] [r] :=
  have hreg := frame_setReg s (BitVec.ofNat 8 k.val) (List.mem_singleton_self r)
  have hwait := frame_setWait (s.setReg r (BitVec.ofNat 8 k.val)) none
  { frame_trans (frame_mono hreg (List.nil_subset [.awaitingKey]) (List.Subset.refl [r]))
      (frame_mono hwait (List.Subset.refl _) (List.nil_subset _)) with }

/-- The register of a resolved wait holds the key's index. -/
theorem resolveWait_reg (r : Reg) (k : Key) (s : State) : ((resolveWait r k s).reg r).toNat = k.val := by
  have hreg : (resolveWait r k s).reg r = BitVec.ofNat 8 k.val := setReg_reg_same s r _
  have := k.isLt
  rw [hreg, BitVec.toNat_ofNat]
  omega

/-- Settles O51: a press in a wait sets the key and then ends the wait; the other cases set the key alone. -/
theorem setKeyResolvesAWait : Obligations.SetKeyResolvesAWait := by
  refine fun k s => ⟨fun r hwait => ?press, setKey_press_idle k, setKey_release k s⟩
  rw [setKey_press_waiting k hwait]
  refine ⟨resolveWait_reg r k _, rfl, rfl, rfl, rfl, ?_⟩
  exact frame_trans (frame_mono (frame_setKeypad s _) (by decide) (List.nil_subset _))
    (frame_mono (frame_resolveWait r k _) (by decide) (List.Subset.refl _))

/-! ## What lasts -/

/-- A property that every one of some operations keeps, holds after any number of them. -/
theorem performAll_keeps {P : State → Prop} {ops : List Op}
    (hkeep : ∀ op ∈ ops, ∀ s, P s → ∃ t, perform op s = .next t ∧ P t) {s : State} (hs : P s) :
    ∃ t, performAll ops s = .next t ∧ P t := by
  induction ops generalizing s with
  | nil => exact ⟨s, rfl, hs⟩
  | cons op ops ih =>
    obtain ⟨u, hu, hPu⟩ := hkeep op List.mem_cons_self s hs
    obtain ⟨t, ht, hPt⟩ := ih (fun op hop => hkeep op (List.mem_cons_of_mem _ hop)) hPu
    refine ⟨t, ?_, hPt⟩
    simp only [performAll, hu, ht]

/-- The core of `s` is at rest in `t`: nothing but the keypad, the timers and the result has changed. -/
def AtRest (s t : State) : Prop := t.pc = s.pc ∧ Frame s t [.key, .DT, .ST] []

theorem atRest_refl (s : State) : AtRest s s := ⟨rfl, frame_refl s _ _⟩

theorem AtRest.trans {s t u : State} (h : AtRest s t) (k : AtRest t u) : AtRest s u :=
  ⟨k.1.trans h.1, frame_trans h.2 k.2⟩

theorem AtRest.fault {s t : State} (h : AtRest s t) : t.fault = s.fault := h.2.fault (by decide)

theorem AtRest.awaitingKey {s t : State} (h : AtRest s t) : t.awaitingKey = s.awaitingKey := h.2.awaitingKey (by decide)

theorem atRest_result (s : State) (r : Result) : AtRest s { s with result := r } := ⟨rfl, { frame_refl s _ _ with }⟩

theorem atRest_tickTimers (s : State) : AtRest s (tickTimers s) :=
  ⟨rfl, { frame_refl s _ _ with
    DT := fun hn => absurd (by decide) hn
    ST := fun hn => absurd (by decide) hn }⟩

theorem atRest_setKeypad (s : State) (keys : Vector Bool 16) : AtRest s { s with key := keys } :=
  ⟨rfl, frame_mono (frame_setKeypad s keys) (by decide) (List.nil_subset _)⟩

/-- In a wait without a fault, everything but a press and a `Load` leaves the core at rest. -/
theorem atRest_of_waiting {s : State} {r : Reg} {op : Op} (hf : s.fault = none) (hw : s.awaitingKey = some r)
    (hop : op = .step ∨ op = .tickTimers ∨ ∃ k, op = .setKey k false) : ∃ t, perform op s = .next t ∧ AtRest s t := by
  rcases hop with rfl | rfl | ⟨k, rfl⟩
  · exact ⟨_, coreStep_waiting hf hw, atRest_result s _⟩
  · exact ⟨_, rfl, atRest_tickTimers s⟩
  · exact ⟨_, rfl, atRest_setKeypad s _⟩

/-- After a fault and without a wait, everything but a `Load` leaves the core at rest. -/
theorem atRest_of_faulted {s : State} {f : FaultRecord} {op : Op} (hf : s.fault = some f) (hw : s.awaitingKey = none)
    (hop : ∀ rom, op ≠ .load rom) : ∃ t, perform op s = .next t ∧ AtRest s t := by
  cases op with
  | step => exact ⟨_, coreStep_faulted hf, atRest_result s _⟩
  | tickTimers => exact ⟨_, rfl, atRest_tickTimers s⟩
  | setKey k pressed =>
    cases pressed with
    | false => exact ⟨_, rfl, atRest_setKeypad s _⟩
    | true => exact ⟨_, congrArg Host.Outcome.next (setKey_press_idle k hw), atRest_setKeypad s _⟩
  | load rom => exact absurd rfl (hop rom)

/-- From a state in which operations leave the core at rest, as long as the fault and the wait are what they are there,
any number of them leaves it at rest. -/
theorem performAll_atRest {s : State} {ops : List Op}
    (hrest : ∀ op ∈ ops, ∀ t : State, t.fault = s.fault → t.awaitingKey = s.awaitingKey →
      ∃ u, perform op t = .next u ∧ AtRest t u) : ∃ t, performAll ops s = .next t ∧ AtRest s t := by
  refine performAll_keeps (fun op hop t ht => ?_) (atRest_refl s)
  obtain ⟨u, hu, htu⟩ := hrest op hop t ht.fault ht.awaitingKey
  exact ⟨u, hu, ht.trans htu⟩

/-- Settles O52: such operations leave the core at rest, and a core at rest still waits. -/
theorem waitLastsUntilAPress : Obligations.WaitLastsUntilAPress := by
  intro ops s r hf hw hops
  obtain ⟨t, ht, hrest⟩ := performAll_atRest (s := s) fun op hop t hft hwt =>
    atRest_of_waiting (hft.trans hf) (hwt.trans hw) (hops op hop)
  exact ⟨t, ht, hrest.awaitingKey.trans hw, hrest⟩

/-- Settles O53: such operations leave the core at rest, and a core at rest keeps its fault. -/
theorem faultLastsUntilALoad : Obligations.FaultLastsUntilALoad := by
  intro ops s f hf hw hops
  obtain ⟨t, ht, hrest⟩ := performAll_atRest (s := s) fun op hop t hft hwt =>
    atRest_of_faulted (hft.trans hf) (hwt.trans hw) (hops op hop)
  exact ⟨t, ht, hrest.fault.trans hf, hrest⟩

/-! ## Load -/

/-- Settles O54: memory is the loaded one, and every other element is that of the reset state. -/
theorem loadRebuildsTheState : Obligations.LoadRebuildsTheState := by
  intro rom s hfits
  rw [load_ok s hfits]
  refine ⟨read_loadedMemory _ rom, ?reg, rfl, rfl, ?stack, rfl, rfl, rfl, fun r c => get_clear (r, c), ?key, rfl, rfl,
    rfl, rfl, rfl⟩
  case reg => simp [State.reg, State.reset]
  case stack => simp [State.reset]
  case key => simp [State.reset]

/-- Settles O56: the size is checked before anything is rebuilt. -/
theorem loadRejectsTooLargePrograms : Obligations.LoadRejectsTooLargePrograms :=
  fun _ s h => load_error s h

/-- Settles O57: the default font is what memory that lists nothing reads as, so loading it lists nothing. -/
theorem resetIsTheLoadOfAnEmptyProgram : Obligations.ResetIsTheLoadOfAnEmptyProgram := by
  refine ⟨?_, rfl⟩
  have hmem : loadedMemory State.reset.params.font [] = [] := by decide
  rw [load_ok _ (by decide), hmem]
  rfl

end Sys2Proof.Machine
end

section
/-! PROOFS. The invariant (spec/10_state.md R29, R32; spec/60_exceptions.md R236 to R239): `Load` establishes it, every
operation keeps it, and so it holds of every reachable state. -/

namespace Sys2Proof.Machine

/-- The invariant speaks of neither the keypad, the timers, the result nor the schedule; it holds in `t` as in `s` where
the fields it speaks of are the same. -/
theorem inv_of_fields {s t : State} (h : s.Inv) (hmem : t.mem = s.mem) (hpc : t.pc = s.pc) (hstack : t.stack = s.stack)
    (hwait : t.awaitingKey = s.awaitingKey) (hfault : t.fault = s.fault) (hcur : t.cur = s.cur) : t.Inv where
  mem := hmem ▸ h.mem
  pc := hpc ▸ h.pc
  stack := hstack ▸ h.stack
  waiting hn := by
    rw [hfault, hpc]
    exact h.waiting (hwait ▸ hn)
  faulted f hf := by
    obtain ⟨hfpc, hlegal, hofFetch, hofInstr⟩ := h.faulted f (hfault ▸ hf)
    exact ⟨hpc ▸ hfpc, hlegal, hpc ▸ hofFetch, hpc ▸ hcur ▸ hofInstr⟩

theorem reset_stack_le : ∀ j : Fin 16, State.reset.stack[j].toNat ≤ 0x1000 := by decide

/-- `Load` of a program that fits establishes the invariant, whatever the state was. -/
theorem load_inv {rom : List Byte} (s : State) (h : rom.length ≤ Config.maxRom) : (load rom s).Inv := by
  have hpc : State.reset.pc.toNat ≤ 0x10FE := by decide
  rw [load_ok s h]
  exact ⟨loadedMemory_wf _ h, hpc, reset_stack_le, fun hn => absurd rfl hn, nofun⟩

/-- Settles O58: the reset state is itself the load of an empty program. -/
theorem invariantHoldsAtTheStart : Obligations.InvariantHoldsAtTheStart := by
  constructor
  · rw [← resetIsTheLoadOfAnEmptyProgram.1]
    exact load_inv _ (by decide)
  · rintro s ⟨rom, params, schedule, draws, hfits, rfl⟩
    exact load_inv _ hfits

/-- An access outside memory of 1 to 16 bytes is a legal error. -/
theorem outside_legal {a : Word} {n : Nat} {e : FatalError} (h1 : 1 ≤ n) (h16 : n ≤ 16) (h : outside a n = some e) :
    e.legal := by
  obtain ⟨hover, rfl⟩ := outside_some h
  exact ⟨h1, h16, a.isLt, .inl (by omega)⟩

theorem noKey_legal {k : Byte} {e : FatalError} (h : noKey k = some e) : e.legal := by
  obtain ⟨hover, rfl⟩ := noKey_some h
  have := k.isLt
  exact ⟨le_rfl, by decide, by omega, .inr ⟨rfl, hover, by omega⟩⟩

/-- The error a well-formed instruction meets is legal (R231). -/
theorem faultOf_legal {i : Instr} {s : State} {e : FatalError} (hwf : i.wellFormed = true)
    (h : faultOf i s = some e) : e.legal := by
  cases i
  case ret =>
    obtain ⟨-, rfl⟩ := ret_error h
    rfl
  case call =>
    obtain ⟨-, rfl⟩ := call_error h
    rfl
  case drw n =>
    obtain ⟨hn, hout⟩ := drw_error h
    have h15 : n ≤ 15 := of_decide_eq_true hwf
    exact outside_legal (by omega) (by omega) hout
  case ldBcd => exact outside_legal (by decide) (by decide) h
  case storeRegs x => exact outside_legal (by omega) (by omega) h
  case loadRegs x => exact outside_legal (by omega) (by omega) h
  case skp => exact noKey_legal h
  case sknp => exact noKey_legal h
  all_goals cases h

/-- Where return addresses are at most 0x1000, an instruction at a `pc` that can be fetched goes on at 0x10FE at
most. -/
theorem pcAfter_le (i : Instr) {s : State} (hpc : s.pc.toNat ≤ 0xFFE) (hstack : ∀ j : Fin 16, s.stack[j].toNat ≤ 0x1000)
    (hcheck : faultOf i s = none) : pcAfter i s ≤ 0x10FE := by
  have hskip : (s.pc.toNat + if skips i s then 4 else 2) ≤ 0x10FE := by
    split <;> omega
  cases i
  case ret =>
    have hsp := (ret_check s).mp hcheck
    have htop : s.stack[s.sp.val - 1].toNat ≤ 0x1000 := hstack ⟨s.sp.val - 1, by omega⟩
    rw [pcAfter, stack_top s hsp]
    omega
  case jp nnn => exact nnn.isLt.le.trans (by decide)
  case call nnn => exact nnn.isLt.le.trans (by decide)
  case jpV0 nnn =>
    have hnnn := nnn.isLt
    have hreg := (s.reg 0).isLt
    rw [pcAfter]
    omega
  case ldVxKey => exact hpc.trans (by decide)
  all_goals exact hskip

/-- The two stores keep the canonical form of memory: their bytes lie inside it. -/
theorem exec_mem_wf {i : Instr} {s t : State} (hwf : s.mem.wf) (hcheck : faultOf i s = none)
    (hexec : exec i s = .next t) : t.mem.wf := by
  obtain ⟨u, hnext, hu⟩ := exec_executes hcheck
  cases hnext.symm.trans hexec
  by_cases hmem : .mem ∈ writtenParts i
  · obtain ⟨x, rfl | rfl⟩ := writes_mem hmem
    · have hfits : s.I.toNat + 2 ≤ 0xFFF := outside_none hcheck
      cases (exec_ldBcd_ok s x hfits).symm.trans hexec
      refine writeBytes_wf hwf ?_
      rw [bcdDigits_length, Config.memSize]
      omega
    · have hfits : s.I.toNat + x.val ≤ 0xFFF := outside_none hcheck
      cases (exec_storeRegs_ok s x hfits).symm.trans hexec
      refine writeBytes_wf hwf ?_
      rw [regBlock_length, Config.memSize]
      omega
  · exact hu.mem hmem ▸ hwf

/-- A call pushes a return address of at most 0x1000; no other instruction writes the stack. -/
theorem exec_stack_le {i : Instr} {s t : State} (hpc : s.pc.toNat ≤ 0xFFE)
    (hstack : ∀ j : Fin 16, s.stack[j].toNat ≤ 0x1000) (hcheck : faultOf i s = none) (hexec : exec i s = .next t) :
    ∀ j : Fin 16, t.stack[j].toNat ≤ 0x1000 := by
  obtain ⟨u, hnext, hu⟩ := exec_executes hcheck
  cases hnext.symm.trans hexec
  by_cases hwrites : .stack ∈ writtenParts i
  · obtain ⟨nnn, rfl⟩ := writes_stack hwrites
    have hsp := (call_check nnn s).mp hcheck
    cases (exec_call_ok s nnn hsp).symm.trans hexec
    intro j
    show (s.stack.set s.sp.val (s.pc + 2))[j.val].toNat ≤ 0x1000
    rw [Vector.getElem_set]
    split
    · rw [toNat_pc_add_two hpc]
      omega
    · exact hstack j
  · exact hu.frame.stack hwrites ▸ hstack

/-- Raising the error of the instruction in `cur` keeps the invariant. -/
theorem raise_inv {s : State} {e : FatalError} (h : s.Inv) (hwait : s.awaitingKey = none) (hpc : s.pc.toNat ≤ 0xFFE)
    (hlegal : e.legal) : (raise e (some s.cur) s).Inv where
  mem := h.mem
  pc := h.pc
  stack := h.stack
  waiting hn := absurd hwait hn
  faulted f hf := by
    cases hf
    exact ⟨rfl, hlegal, nofun, fun op hop => ⟨(Option.some.inj hop).symm, hpc⟩⟩

/-- An instruction executed at a `pc` that can be fetched, with no fault and no wait, keeps the invariant. -/
theorem exec_inv {i : Instr} {s : State} (h : s.Inv) (hfault : s.fault = none) (hwait : s.awaitingKey = none)
    (hpc : s.pc.toNat ≤ 0xFFE) (hwf : i.wellFormed = true) : ∃ t, exec i s = .next t ∧ t.Inv := by
  rcases exec_cases i s with ⟨e, hcheck, hraise⟩ | ⟨hcheck, t, hexec, ht⟩
  · exact ⟨_, hraise, raise_inv h hwait hpc (faultOf_legal hwf hcheck)⟩
  · have hnofault : t.fault = none := (ht.frame.fault writes_fault).trans hfault
    refine ⟨t, hexec, exec_mem_wf h.mem hcheck hexec, ht.pc hpc ▸ pcAfter_le i hpc h.stack hcheck,
      exec_stack_le hpc h.stack hcheck hexec, fun hn => ⟨hnofault, ?_⟩, by simp [hnofault]⟩
    have hwrites : .awaitingKey ∈ writtenParts i := by
      by_contra hn'
      exact hn ((ht.frame.awaitingKey hn').trans hwait)
    obtain ⟨x, rfl⟩ := writes_awaitingKey hwrites
    exact (ht.pc hpc).trans_le hpc

/-- `Step` keeps the invariant. -/
theorem coreStep_inv {s : State} (h : s.Inv) : ∃ t, coreStep s = .next t ∧ t.Inv := by
  rcases coreStep_cases s with ⟨f, -, hstep⟩ | ⟨r, -, -, hstep⟩ | ⟨hf, hw, hpc, hstep⟩ |
    ⟨op, i, hf, hw, hpc, hwf, hstep⟩ | ⟨op, hf, hw, hpc, hstep⟩
  · exact ⟨_, hstep, inv_of_fields h rfl rfl rfl rfl rfl rfl⟩
  · exact ⟨_, hstep, inv_of_fields h rfl rfl rfl rfl rfl rfl⟩
  · refine ⟨_, hstep, h.mem, h.pc, h.stack, fun hn => absurd hw hn, fun f hf' => ?_⟩
    cases hf'
    exact ⟨rfl, ⟨by decide, by decide, s.pc.isLt, .inl (by omega)⟩, fun _ => ⟨rfl, hpc⟩, nofun⟩
  · have hfetched : ({ s with cur := op } : State).Inv :=
      ⟨h.mem, h.pc, h.stack, h.waiting, by simp [hf]⟩
    rw [hstep]
    exact exec_inv hfetched hf hw hpc hwf
  · refine ⟨_, hstep, h.mem, ?_, h.stack, fun hn => absurd hw hn, fun f hf' => ?_⟩
    · exact (toNat_pc_add_two hpc).trans_le (by omega)
    · cases hf.symm.trans hf'

/-- A press or a release keeps the invariant: a wait stands at a `pc` that can be fetched and beside no fault. -/
theorem setKey_inv {s : State} (k : Key) (pressed : Bool) (h : s.Inv) : (setKey k pressed s).Inv := by
  cases pressed with
  | false => exact inv_of_fields h rfl rfl rfl rfl rfl rfl
  | true =>
    rcases Option.eq_none_or_eq_some s.awaitingKey with hw | ⟨r, hw⟩
    · rw [setKey_press_idle k hw]
      exact inv_of_fields h rfl rfl rfl rfl rfl rfl
    · obtain ⟨hf, hpc⟩ := h.waiting (by simp [hw])
      rw [setKey_press_waiting k hw]
      refine ⟨h.mem, ?_, h.stack, fun hn => absurd rfl hn, fun f hf' => ?_⟩
      · exact (toNat_pc_add_two hpc).trans_le (by omega)
      · cases hf.symm.trans hf'

/-- Every operation keeps the invariant. -/
theorem perform_inv {s : State} (op : Op) (h : s.Inv) : ∃ t, perform op s = .next t ∧ t.Inv := by
  cases op with
  | step => exact coreStep_inv h
  | tickTimers => exact ⟨_, rfl, inv_of_fields h rfl rfl rfl rfl rfl rfl⟩
  | setKey k pressed => exact ⟨_, rfl, setKey_inv k pressed h⟩
  | load rom =>
    refine ⟨_, rfl, ?_⟩
    rcases Nat.lt_or_ge Config.maxRom rom.length with hlarge | hfits
    · rw [load_error s hlarge]
      exact inv_of_fields h rfl rfl rfl rfl rfl rfl
    · exact load_inv s hfits

/-- Settles O59: a step performs one operation, on a state that differs in the schedule alone. -/
theorem everyStepKeepsTheInvariant : Obligations.EveryStepKeepsTheInvariant :=
  fun _ h => perform_inv _ (inv_of_fields h rfl rfl rfl rfl rfl rfl)

theorem reachable_inv {s : State} (h : s.Reachable) : s.Inv := by
  induction h with
  | start hs => exact invariantHoldsAtTheStart.2 _ hs
  | next _ hstep ih =>
    obtain ⟨u, hu, hinv⟩ := everyStepKeepsTheInvariant _ ih
    cases hu.symm.trans hstep
    exact hinv

/-- Settles O60: the invariant holds of every reachable state and says both. -/
theorem reachableStatesNeverWrapThePc : Obligations.ReachableStatesNeverWrapThePc := by
  intro s hs
  have h := reachable_inv hs
  exact ⟨h.pc, fun ⟨hfault, hwait⟩ => hfault (h.waiting hwait).1⟩

end Sys2Proof.Machine
end

section
/-! PROOFS. Calls and returns (spec/41_control_flow.md R125 and R127), the arithmetic that is left (spec/42_alu.md R155 to
R163), the index register (spec/43_index_memory.md R181 and R182) and the key skips (spec/44_display_keys_timers.md R203
and R204). Each reads the effect off the lemma of the instruction's check, or off the shape it shares with others. -/

namespace Sys2Proof.Machine

/-! ## Calls and returns -/

/-- Settles O21: where the check passes the call is a push and a jump; where it fails the error is raised. -/
theorem callPushesTheReturnAddress : Obligations.CallPushesTheReturnAddress := by
  refine fun nnn s => ⟨fun hsp => ?push, fun hsp => exec_raises (by simp [faultOf, hsp])⟩
  refine ⟨_, exec_call_ok s nnn hsp, Vector.getElem_set_self hsp, fun j hj => ?_, rfl, target_toNat nnn,
    { frame_setStack s _ _ with }⟩
  exact Vector.getElem_set_ne hsp j.isLt hj.symm

/-- Settles O22: where the check passes the return is a pop and a jump; where it fails the error is raised. -/
theorem returnPopsTheReturnAddress : Obligations.ReturnPopsTheReturnAddress :=
  fun s => ⟨fun hsp => ⟨_, exec_ret_ok s hsp, rfl, rfl, { frame_setSp s _ with }, fetch_error⟩,
    fun hsp => exec_raises (by simp [faultOf, hsp])⟩

/-- Calls, to whatever targets, complete one after another as long as the stack has room for them. -/
theorem execAll_calls (targets : List Addr) (s : State) (h : s.sp.val + targets.length ≤ 16) :
    ∃ t, execAll (targets.map .call) s = .next t ∧ t.sp.val = s.sp.val + targets.length ∧ t.fault = s.fault := by
  induction targets generalizing s with
  | nil => exact ⟨s, rfl, rfl, rfl⟩
  | cons nnn targets ih =>
    rw [List.length_cons] at h ⊢
    obtain ⟨u, hcall, -, -, hsp, -, hframe⟩ := (callPushesTheReturnAddress nnn s).1 (by omega)
    obtain ⟨t, hrest, htsp, htfault⟩ := ih u (by omega)
    refine ⟨t, ?_, by omega, htfault.trans (hframe.fault (by decide))⟩
    simp only [List.map_cons, execAll, hcall, hrest]

/-- Settles O26: sixteen calls fill the stack, and the next one finds it full. -/
theorem seventeenthNestedCallOverflows : Obligations.SeventeenthNestedCallOverflows := by
  intro targets last s hlength hsp
  obtain ⟨t, hcalls, htsp, hfault⟩ := execAll_calls targets s (by omega)
  have hfull : t.sp.val = 16 := by omega
  exact ⟨t, hcalls, hfull, hfault, (callPushesTheReturnAddress last t).2 hfull⟩

/-- Settles O27: the entry that the return pops is the one the call pushed. -/
theorem returnUndoesTheCall : Obligations.ReturnUndoesTheCall := by
  intro nnn s hsp
  obtain ⟨t, hcall, hpushed, -, htsp, -, -⟩ := (callPushesTheReturnAddress nnn s).1 hsp
  refine ⟨t, hcall, fun u hstack husp => ?_⟩
  have hutop : u.sp.val = s.sp.val + 1 := by rw [husp, htsp]
  obtain ⟨v, hret, hpc, hvsp, -⟩ := (returnPopsTheReturnAddress u).1 (by omega)
  refine ⟨v, hret, ?_, Fin.ext (by omega)⟩
  rw [hpc, ← hpushed]
  simp only [hstack, hutop, Nat.add_sub_cancel]

/-! ## Arithmetic and logic -/

/-- Settles O31: the ALU has no flag for the three, so each sets one register. -/
theorem logicWritesNoFlag : Obligations.LogicWritesNoFlag :=
  ⟨fun _ _ _ => writesRegister_of_exec rfl, fun _ _ _ => writesRegister_of_exec rfl,
    fun _ _ _ => writesRegister_of_exec rfl⟩

/-- NOT borrow is set exactly where the minuend is at least the subtrahend. -/
theorem notBorrow_iff (a b : Byte) : notBorrow a b = true ↔ a.toNat ≥ b.toNat := decide_eq_true_iff

/-- The difference of bytes, as a number. -/
theorem sub_toNat (a b : Byte) : (a - b).toNat = (a.toNat + 256 - b.toNat) % 256 := by
  have := b.isLt
  rw [BitVec.toNat_sub]
  congr 1
  omega

/-- Settles O33: the shape of the flag-writing instructions, with the difference of bytes and its NOT borrow. -/
theorem subtractWritesNotBorrowThenDifference : Obligations.SubtractWritesNotBorrowThenDifference :=
  ⟨writesFlagThenResult_of_exec (fun _ _ _ => rfl) (fun x y s => sub_toNat (s.reg x) (s.reg y))
      (fun x y s => notBorrow_iff (s.reg x) (s.reg y)),
    writesFlagThenResult_of_exec (fun _ _ _ => rfl) (fun x y s => sub_toNat (s.reg y) (s.reg x))
      (fun x y s => notBorrow_iff (s.reg y) (s.reg x))⟩

/-- The operand of a shift is the register that SHIFT_SRC names. -/
theorem shiftOperand_toNat (x y : Reg) (s : State) :
    (shiftOperand s.params.shiftSrc (s.reg x) (s.reg y)).toNat = shifted s x y := by
  unfold shiftOperand shifted
  cases s.params.shiftSrc <;> rfl

theorem outRight_iff (v : Byte) : outRight v = true ↔ v.toNat % 2 = 1 := by
  simp [outRight, BitVec.getLsbD, Nat.testBit_zero]

theorem outLeft_iff (v : Byte) : outLeft v = true ↔ v.toNat ≥ 128 := by
  have := v.isLt
  rw [outLeft, BitVec.getLsbD, Nat.testBit_eq_decide_div_mod_eq, decide_eq_true_iff]
  omega

theorem shiftRight_one_toNat (v : Byte) : (v >>> 1).toNat = v.toNat / 2 := by
  rw [BitVec.toNat_ushiftRight, Nat.shiftRight_one]

theorem shiftLeft_one_toNat (v : Byte) : (v <<< 1).toNat = v.toNat * 2 % 256 := by
  rw [BitVec.toNat_shiftLeft, Nat.shiftLeft_eq, Nat.pow_one]

/-- Settles O34: the shape of the flag-writing instructions, with the shifted operand and the bit shifted out of it. -/
theorem shiftsWriteTheBitShiftedOut : Obligations.ShiftsWriteTheBitShiftedOut := by
  refine ⟨writesFlagThenResult_of_exec (fun _ _ _ => rfl) (fun x y s => ?right) (fun x y s => ?outRight),
    writesFlagThenResult_of_exec (fun _ _ _ => rfl) (fun x y s => ?left) (fun x y s => ?outLeft)⟩
  case right => rw [shiftRight_one_toNat, shiftOperand_toNat]
  case outRight => rw [outRight_iff, shiftOperand_toNat]
  case left => rw [shiftLeft_one_toNat, shiftOperand_toNat]
  case outLeft => rw [outLeft_iff, shiftOperand_toNat]

/-- Settles O35: the register holds the drawn byte under the mask, which has no bit in common with the mask's
complement. -/
theorem randomByteIsMasked : Obligations.RandomByteIsMasked := by
  intro x kk s
  have hreg := setReg_reg_same s x (Config.randomByte s.draws &&& kk)
  refine ⟨_, rfl, hreg, ?_, rfl, rfl, frame_complete (frame_setReg_draws s x _ _)⟩
  refine (congrArg (· &&& ~~~kk) hreg).trans ?_
  rw [BitVec.and_assoc, BitVec.and_not_self]
  exact BitVec.and_zero

/-! ## The index register -/

/-- Five times a byte fits in 16 bits. -/
theorem glyphAddr_toNat (digit : Byte) : (glyphAddr digit).toNat = 5 * digit.toNat := by
  have := digit.isLt
  simp only [glyphAddr, zext16, BitVec.toNat_mul, BitVec.toNat_setWidth, show (5 : Word).toNat = 5 from rfl]
  omega

/-- Adding a byte to the index, as a number. -/
theorem add_zext16_toNat (a : Word) (v : Byte) : (a + zext16 v).toNat = (a.toNat + v.toNat) % 65536 := by
  have := v.isLt
  simp only [zext16, BitVec.toNat_add, BitVec.toNat_setWidth]
  omega

/-- Settles O37: both instructions set `I`, to a 16-bit sum and to a 16-bit product. -/
theorem indexArithmeticIsUnmasked : Obligations.IndexArithmeticIsUnmasked := by
  constructor
  · intro x s
    obtain ⟨t, hnext, hI, hpc, hframe⟩ :
        ∃ t, exec (.addI x) s = .next t ∧ t.I = s.I + zext16 (s.reg x) ∧ t.pc = s.pc + 2 ∧ Frame s t [.I] [] :=
      setsIndex_of_exec rfl
    exact ⟨t, hnext, by rw [hI, add_zext16_toNat], hpc, hframe⟩
  · intro x s
    obtain ⟨t, hnext, hI, hpc, hframe⟩ :
        ∃ t, exec (.ldFont x) s = .next t ∧ t.I = glyphAddr (s.reg x) ∧ t.pc = s.pc + 2 ∧ Frame s t [.I] [] :=
      setsIndex_of_exec rfl
    exact ⟨t, hnext, by rw [hI, glyphAddr_toNat], hpc, hframe⟩

/-! ## Key skips -/

/-- Settles O47: for a key that exists both end as skips on its state; for the others the check fails. -/
theorem keySkipsFollowTheKeypad : Obligations.KeySkipsFollowTheKeypad := by
  refine fun x s => ⟨fun hkey => ⟨?skp, ?sknp⟩, fun hkey => ?none⟩
  case skp => exact skipsWhen_of_exec (exec_skp_ok s x hkey) Iff.rfl
  case sknp => exact skipsWhen_of_exec (exec_sknp_ok s x hkey) (iff_of_eq (Bool.not_eq_true' _))
  case none =>
    have hcheck : noKey (s.reg x) = some (.outOfBounds (s.reg x).toNat 1) := if_pos hkey
    exact ⟨exec_raises hcheck, exec_raises hcheck⟩

end Sys2Proof.Machine
end

section
/-! PROOFS. Memory and the block transfers (spec/20_memory.md R55 to R69, spec/43_index_memory.md R183 to R185). The two
stores complete after writing one block at `I`; what a store leaves in memory, and what a fetch sees of it, is said once
for every block. -/

namespace Sys2Proof.Machine

/-- Settles O43: canonical memories with the same bytes have the same cells, and both list them by rising address. -/
theorem canonicalMemoriesAreDeterminedByTheirBytes : Obligations.CanonicalMemoriesAreDeterminedByTheirBytes := by
  intro m n hm hn h
  have hasymm : Std.Asymm fun c d : Host.Cell => c.1 < d.1 := ⟨fun _ _ => Nat.lt_asymm⟩
  exact List.Subset.antisymm_of_pairwise hm.1 hn.1 (wf_ext_subset hm hn h) (wf_ext_subset hn hm fun a => (h a).symm)

/-! ## Storing a block -/

/-- An instruction that completes after storing a block at `I`: the block holds the bytes, every other byte and every
other piece of state is unchanged. -/
theorem storesBlock_of_exec {i : Instr} {s : State} {bytes : List Byte} (hwf : s.mem.wf)
    (hexec : exec i s = complete false false { s with mem := s.mem.writeBytes s.I.toNat bytes }) :
    ∃ t, exec i s = .next t ∧
      (∀ j, j < bytes.length → t.mem.read (s.I.toNat + j) = bytes.getD j 0) ∧
      (∀ a, a < s.I.toNat ∨ s.I.toNat + bytes.length ≤ a → t.mem.read a = s.mem.read a) ∧
      t.I = s.I ∧ t.pc = s.pc + 2 ∧ Frame s t [.mem] [] := by
  refine ⟨_, hexec, fun j hj => ?_, fun a ha => read_writeBytes_outside hwf.1 ha, rfl, rfl, { frame_setMem s _ with }⟩
  refine (read_writeBytes hwf.1 _ _ _).trans ?_
  rw [if_pos (by omega), Nat.add_sub_cancel_left]

/-- What every fetch sees of a block that was stored at `I`. -/
theorem fetchesTheStored_of_block {s t : State} {bytes : List Byte} {stored : Nat → Nat}
    (hin : ∀ j, j < bytes.length → t.mem.read (s.I.toNat + j) = bytes.getD j 0)
    (hout : ∀ a, a < s.I.toNat ∨ s.I.toNat + bytes.length ≤ a → t.mem.read a = s.mem.read a)
    (hstored : ∀ j, j < bytes.length → (bytes.getD j 0).toNat = stored j) :
    FetchesTheStored s t bytes.length stored := by
  have hbyte : ∀ a, (t.mem.read a).toNat =
      if s.I.toNat ≤ a ∧ a < s.I.toNat + bytes.length then stored (a - s.I.toNat) else (s.mem.read a).toNat := by
    intro a
    split
    · next h =>
      have ha : s.I.toNat + (a - s.I.toNat) = a := by omega
      rw [← hstored _ (by omega), ← hin _ (by omega), ha]
    · next h => rw [hout a (by omega)]
  intro pc hpc
  refine ⟨_, fetch_ok hpc, ?_⟩
  rw [joinBytes_toNat, hbyte, hbyte]

/-! ## The two stores -/

/-- The digits stored, as numbers. -/
theorem bcdDigits_getD (v : Byte) {j : Nat} (h : j < 3) :
    ((bcdDigits v).getD j 0).toNat =
      if j = 0 then v.toNat / 100 else if j = 1 then v.toNat / 10 % 10 else v.toNat % 10 := by
  have := v.isLt
  interval_cases j <;> simp [bcdDigits] <;> omega

/-- The registers stored, by their number in the block. -/
theorem regBlock_getD_ofNat (x : Reg) (s : State) {j : Nat} (h : j < (regBlock x s).length) :
    (regBlock x s).getD j 0 = s.reg (Fin.ofNat 16 j) := by
  rw [regBlock_length] at h
  have hj : (Fin.ofNat 16 j).val = j := Nat.mod_eq_of_lt (by omega)
  rw [← regBlock_getD x s (Fin.ofNat 16 j) (by omega), hj]

/-- Settles O38: the block of the three digits, one by one. -/
theorem bcdStoresThreeDigits : Obligations.BcdStoresThreeDigits := by
  refine fun x s hwf => ⟨fun hfits => ?stored, fun hover => exec_raises (if_pos (by omega))⟩
  obtain ⟨t, hnext, hin, hout, -, hpc, hframe⟩ := storesBlock_of_exec hwf (exec_ldBcd_ok s x hfits)
  rw [bcdDigits_length] at hin hout
  have hdigit : ∀ j, j < 3 → (t.mem.read (s.I.toNat + j)).toNat = _ := fun j hj =>
    (congrArg BitVec.toNat (hin j hj)).trans (bcdDigits_getD (s.reg x) hj)
  exact ⟨t, hnext, hdigit 0 (by decide), hdigit 1 (by decide), hdigit 2 (by decide), fun a ha => hout a (by omega), hpc,
    hframe⟩

/-- Settles O39: the block of the registers, one by one. -/
theorem storeRegistersCopiesTheBlock : Obligations.StoreRegistersCopiesTheBlock := by
  refine fun x s hwf => ⟨fun hfits => ?stored, fun hover => exec_raises (if_pos (by omega))⟩
  obtain ⟨t, hnext, hin, hout, -, hpc, hframe⟩ := storesBlock_of_exec hwf (exec_storeRegs_ok s x hfits)
  rw [regBlock_length] at hin hout
  refine ⟨t, hnext, fun j hj => ?_, fun a ha => hout a (by omega), hpc, hframe⟩
  have hle : j.val ≤ x.val := hj
  rw [hin j (by omega), regBlock_getD x s j hle]

/-- Settles O40: a register of the block holds the byte read for it, and the others are kept. -/
theorem loadRegistersCopiesTheBlock : Obligations.LoadRegistersCopiesTheBlock := by
  refine fun x s => ⟨fun hfits => ?loaded, fun hover => exec_raises (if_pos (by omega))⟩
  have hlength := readBytes_length s.mem s.I.toNat (x.val + 1)
  have hreg := fun j : Reg => setRegsFrom_getElem s.V 0 (s.mem.readBytes s.I.toNat (x.val + 1)) j j.isLt
  refine ⟨_, exec_loadRegs_ok s x hfits, fun j hj => (hreg j).trans ?block, fun j hj => (hreg j).trans ?above, rfl,
    frame_complete ?frame⟩
  case block =>
    have hlt : j.val < (s.mem.readBytes s.I.toNat (x.val + 1)).length := by
      have hle : j.val ≤ x.val := hj
      omega
    rw [if_pos (by omega), Nat.sub_zero, ← readBytes_getElem s.mem s.I.toNat _ hlt]
    exact (List.getElem_eq_getD 0).symm
  case above =>
    have hgt : x.val < j.val := hj
    exact if_neg (by omega)
  case frame =>
    exact frame_mono (frame_loadBlock s x _ hlength) (List.Subset.refl _) fun j _ => List.mem_finRange j

/-- Settles O41: the load reads the bytes that the store left. -/
theorem loadUndoesStore : Obligations.LoadUndoesStore := by
  intro x s hwf hfits
  obtain ⟨t, hstore, hin, -, -, hframe⟩ := (storeRegistersCopiesTheBlock x s hwf).1 hfits
  have htI : t.I = s.I := hframe.I (by decide)
  refine ⟨t, hstore, fun u hmem hI => ?_⟩
  rw [htI] at hI
  obtain ⟨v, hload, hloaded, -⟩ := (loadRegistersCopiesTheBlock x u).1 (by rwa [hI])
  refine ⟨v, hload, fun j hj => ?_⟩
  rw [hloaded j hj, hmem, hI, hin j hj]

/-- Settles O42: both stores write one block. -/
theorem nextFetchSeesTheStore : Obligations.NextFetchSeesTheStore := by
  refine fun x s hwf => ⟨fun hfits => ?bcd, fun hfits => ?regs⟩
  case bcd =>
    obtain ⟨t, hnext, hin, hout, -⟩ := storesBlock_of_exec hwf (exec_ldBcd_ok s x hfits)
    refine ⟨t, hnext, ?_⟩
    rw [← bcdDigits_length (s.reg x)]
    exact fetchesTheStored_of_block hin hout fun j hj => bcdDigits_getD (s.reg x) hj
  case regs =>
    obtain ⟨t, hnext, hin, hout, -⟩ := storesBlock_of_exec hwf (exec_storeRegs_ok s x hfits)
    refine ⟨t, hnext, ?_⟩
    rw [← regBlock_length x s]
    exact fetchesTheStored_of_block hin hout fun j hj => congrArg BitVec.toNat (regBlock_getD_ofNat x s hj)

end Sys2Proof.Machine
end

section
/-! PROOFS. Drawing (spec/44_display_keys_timers.md R201, R202). The loop draws a list of different places
(Laws/Framebuffer.lean); here these places are the pixels that `covers` names, counted from the sprite's corner round
both edges. -/

namespace Sys2Proof.Machine

/-- How many rows below the sprite's top row a row lies, counted round the screen. -/
def rowOffset (cy : Byte) (r : Fin 32) : Nat := (r.val + 32 - cy.toNat % 32) % 32

/-- How many columns right of the sprite's left column a column lies, counted round the screen. -/
def colOffset (cx : Byte) (c : Fin 64) : Nat := (c.val + 64 - cx.toNat % 64) % 64

/-- The place of an offset is the one pixel that has this offset. -/
theorem eq_spritePlace_iff {cx cy : Byte} {r c : Nat} (hr : r < 32) (hc : c < 64) (p : Pixel) :
    p = spritePlace cx cy r c ↔ rowOffset cy p.1 = r ∧ colOffset cx p.2 = c := by
  have hrow := p.1.isLt
  have hcol := p.2.isLt
  simp only [spritePlace, Prod.ext_iff, Fin.ext_iff, Fin.ofNat, rowOffset, colOffset]
  omega

/-- Coverage in terms of the offsets. -/
theorem covers_iff (s : State) (x y : Reg) (n : Nat) (p : Pixel) :
    covers s x y n p.1 p.2 = true ↔ rowOffset (s.reg y) p.1 < n ∧ colOffset (s.reg x) p.2 < 8 ∧
      spriteBit (s.mem.read (s.I.toNat + rowOffset (s.reg y) p.1)) (colOffset (s.reg x) p.2) = true := by
  simp only [covers, rowOffset, colOffset, spriteBit, Bool.and_eq_true, decide_eq_true_eq, and_assoc]

/-- The places the loop draws are the covered ones. -/
theorem mem_spritePixels_iff {s : State} {x y : Reg} {n : Nat} (hn : n ≤ 15) (p : Pixel) :
    p ∈ spritePixels (s.reg x) (s.reg y) (s.mem.readBytes s.I.toNat n) ↔ covers s x y n p.1 p.2 = true := by
  have hrow : ∀ r, r < n → (s.mem.readBytes s.I.toNat n).getD r 0 = s.mem.read (s.I.toNat + r) := by
    intro r hr
    have hlt : r < (s.mem.readBytes s.I.toNat n).length := by rwa [readBytes_length]
    rw [← readBytes_getElem s.mem s.I.toNat n hlt]
    exact (List.getElem_eq_getD 0).symm
  rw [spritePixels, mem_spritePixelsFrom, readBytes_length, covers_iff]
  constructor
  · rintro ⟨r, c, hr, hc, hbit, hp⟩
    rw [Nat.zero_add] at hp
    obtain ⟨rfl, rfl⟩ := (eq_spritePlace_iff (by omega) (by omega) p).mp hp
    exact ⟨hr, hc, hrow _ hr ▸ hbit⟩
  · rintro ⟨hr, hc, hbit⟩
    refine ⟨_, _, hr, hc, (hrow _ hr).symm ▸ hbit, ?_⟩
    rw [Nat.zero_add]
    exact (eq_spritePlace_iff (by omega) (by omega) p).mpr ⟨rfl, rfl⟩

/-- The framebuffer drawn, pixel by pixel, and whether a set pixel was hit. -/
theorem drawSprite_covers (s : State) (x y : Reg) {n : Nat} (hn : n ≤ 15) :
    let drawn := drawSprite s.fb (s.reg x) (s.reg y) (s.mem.readBytes s.I.toNat n)
    (∀ p, drawn.1.get p = (s.fb.get p ^^ covers s x y n p.1 p.2)) ∧
    (drawn.2 = true ↔ ∃ p : Pixel, s.fb.get p = true ∧ covers s x y n p.1 p.2 = true) := by
  have hnodup : (spritePixels (s.reg x) (s.reg y) (s.mem.readBytes s.I.toNat n)).Nodup :=
    spritePixelsFrom_nodup (by rw [readBytes_length]; omega)
  obtain ⟨hget, hhit⟩ := foldl_drawPixel hnodup s.fb false
  constructor
  · intro p
    refine (hget p).trans ?_
    simp only [mem_spritePixels_iff hn, Bool.decide_eq_true]
  · refine (Bool.eq_iff_iff.mp hhit).trans ?_
    simp only [Bool.false_or, List.any_eq_true, mem_spritePixels_iff hn, and_comm]

/-- Settles O45: the framebuffer is the drawn one, and VF the Boolean that tells of a hit. -/
theorem drawFlipsTheCoveredPixels : Obligations.DrawFlipsTheCoveredPixels := by
  intro x y n s hn hfits
  obtain ⟨hget, hhit⟩ := drawSprite_covers s x y hn
  refine ⟨_, exec_drw_ok s x y n hfits, fun r c => hget (r, c), fun hex => ?hit, fun hno => ?noHit, rfl, rfl,
    frame_complete (frame_setFb_setReg s _ _ _)⟩
  case hit =>
    obtain ⟨r, c, hset, hcov⟩ := hex
    exact (setReg_reg_same _ _ _).trans (congrArg boolByte (hhit.mpr ⟨(r, c), hset, hcov⟩))
  case noHit =>
    refine (setReg_reg_same _ _ _).trans (congrArg boolByte (Bool.eq_false_iff.mpr fun hd => hno ?_))
    obtain ⟨⟨r, c⟩, hset, hcov⟩ := hhit.mp hd
    exact ⟨r, c, hset, hcov⟩

/-- Coverage depends on the memory, the index and the coordinates alone. -/
theorem covers_congr {s u : State} {x y : Reg} (hmem : u.mem = s.mem) (hI : u.I = s.I) (hx : u.reg x = s.reg x)
    (hy : u.reg y = s.reg y) (n : Nat) (r : Fin 32) (c : Fin 64) : covers u x y n r c = covers s x y n r c := by
  simp only [covers, hmem, hI, hx, hy]

/-- Settles O46: each pixel is flipped twice or not at all, and a covered pixel that the second draw finds set is one that
the first draw found clear. -/
theorem drawingTwiceRestoresTheScreen : Obligations.DrawingTwiceRestoresTheScreen := by
  intro x y n s hn hfits
  obtain ⟨t, hfirst, hdrawn, -⟩ := drawFlipsTheCoveredPixels x y n s hn hfits
  refine ⟨t, hfirst, fun u hfb hmem hI hx hy => ?_⟩
  obtain ⟨v, hsecond, hredrawn, hhit, hnoHit, -⟩ := drawFlipsTheCoveredPixels x y n u hn (by rwa [hI])
  simp only [covers_congr hmem hI hx hy, hfb, hdrawn] at hredrawn hhit hnoHit
  refine ⟨v, hsecond, framebuffer_ext fun p => ?screen, fun hvf => ?set, fun ⟨r, c, hclear, hcov⟩ => ?clear⟩
  case screen =>
    refine (hredrawn p.1 p.2).trans ?_
    rw [Bool.xor_assoc, Bool.xor_self, Bool.xor_false]
    rfl
  case set =>
    by_contra hno
    refine absurd (hvf.symm.trans (hnoHit ?_)) (by decide)
    rintro ⟨r, c, hset, hcov⟩
    exact hno ⟨r, c, by simpa [hcov] using hset, hcov⟩
  case clear => exact hhit ⟨r, c, by rw [hclear, hcov]; rfl, hcov⟩

end Sys2Proof.Machine
end
